-- ==== Sys2Proof/Word.lean ====
section
/-! DEFINITION. The widths of the values the core moves (spec 00_scope.md R4, R5): every value is unsigned. -/
namespace Sys2Proof

/-- `u32`: a data half, a key word, an operand, a response word (R4 `HALF_BITS`, `RSP_BITS`). -/
abbrev Word := BitVec 32

/-- `u4`: one nibble, the width of an S-box entry and of the `op` and `idx` fields (R5, R45). -/
abbrev Nibble := BitVec 4

/-- `u40`: one command word at the command port (R45, `CMD_BITS`). -/
abbrev CmdWord := BitVec 40

/-- `u64`: one block, and one key component (R4 `BLOCK_BITS`, R34). -/
abbrev Block := BitVec 64

/-- `u8`: one input byte of a message; only the host's packing sees bytes (R33). -/
abbrev Byte := BitVec 8

end Sys2Proof
end

