-- ==== Sys2Proof/Syntax.lean ====
section
/-! DEFINITION. The nine commands of FCC command set 1, one constructor per row of spec/opcode_table.json
(30_encoding.md R48, R49). The sequencer's steps ROUND and FINAL are no commands and have no encoding. -/
namespace Sys2Proof

/-- A command as the core sees it once decoded. `idx` is the 4-bit field of format C as it stands (R45, R50);
`WellFormed.lean` says which of its values name a key register. -/
inductive Instr where
  /-- `NOP` (R90). -/
  | nop
  /-- `LDK i, w` (R91): key word `i` := `w`. -/
  | ldk (idx : Nibble) (imm : Word)
  /-- `LDL w` (R92): lower half of the block := `w`. -/
  | ldl (imm : Word)
  /-- `LDH w` (R93): upper half of the block := `w`. -/
  | ldh (imm : Word)
  /-- `ENC` (R100): start an encryption of the block held. -/
  | enc
  /-- `DEC` (R101): start a decryption of the block held. -/
  | dec
  /-- `RDL` (R94): respond with the lower half. -/
  | rdl
  /-- `RDH` (R95): respond with the upper half. -/
  | rdh
  /-- `RDS` (R96): respond with `STATUS`. -/
  | rds
deriving DecidableEq, Repr

end Sys2Proof
end

