-- ==== Sys2Proof/WellFormed.lean ====
section
/-! DEFINITION. Which terms of `Instr` are commands of the command set (30_encoding.md R48, R50, R51). -/
namespace Sys2Proof

/-- The one check there is: `idx` of LDK names a key register, 0..7; 8..15 are reserved (R32, R40, R51 (b)). -/
def Instr.wellFormed : Instr → Bool
  | .nop => true
  | .ldk idx _ => idx.toNat < 8
  | .ldl _ => true
  | .ldh _ => true
  | .enc => true
  | .dec => true
  | .rdl => true
  | .rdh => true
  | .rds => true

end Sys2Proof
end

