-- ==== Sys2Proof/Decode.lean ====
section
/-! DEFINITION. Command encoding (30_encoding.md): the fields of format C, the opcode map, the total decoder, the
encoder and the assembler spelling. -/
namespace Sys2Proof

/-! ## Format C (R45) -/

/-- `op = c[39:36]`. -/
def opField (c : CmdWord) : Nibble := c.extractLsb' 36 4

/-- `idx = c[35:32]`. -/
def idxField (c : CmdWord) : Nibble := c.extractLsb' 32 4

/-- `imm = c[31:0]`. -/
def immField (c : CmdWord) : Word := c.extractLsb' 0 32

/-- `c = (op, idx, imm)`, `op` most significant. -/
def assemble (op idx : Nibble) (imm : Word) : CmdWord := op ++ idx ++ imm

/-! ## The opcode map (R49) -/

/-- One row of R49: a word satisfies it when `(c and mask) == pattern` (R48). -/
structure Row where
  mnemonic : String
  pattern : CmdWord
  mask : CmdWord
deriving DecidableEq, Repr

/-- R48: `(c and mask) == match`. -/
def Row.hit (r : Row) (c : CmdWord) : Bool := (c &&& r.mask) == r.pattern

/-- R49, row NOP. -/
def rowNop : Row := ⟨"NOP", 0x0000000000#40, 0xFFFFFFFFFF#40⟩
/-- R49, row LDK: `c[35]` must be 0, `c[34:32]` and `imm` are free. -/
def rowLdk : Row := ⟨"LDK", 0x1000000000#40, 0xF800000000#40⟩
/-- R49, row LDL. -/
def rowLdl : Row := ⟨"LDL", 0x2000000000#40, 0xFF00000000#40⟩
/-- R49, row LDH. -/
def rowLdh : Row := ⟨"LDH", 0x3000000000#40, 0xFF00000000#40⟩
/-- R49, row ENC. -/
def rowEnc : Row := ⟨"ENC", 0x4000000000#40, 0xFFFFFFFFFF#40⟩
/-- R49, row DEC. -/
def rowDec : Row := ⟨"DEC", 0x5000000000#40, 0xFFFFFFFFFF#40⟩
/-- R49, row RDL. -/
def rowRdl : Row := ⟨"RDL", 0x6000000000#40, 0xFFFFFFFFFF#40⟩
/-- R49, row RDH. -/
def rowRdh : Row := ⟨"RDH", 0x7000000000#40, 0xFFFFFFFFFF#40⟩
/-- R49, row RDS. -/
def rowRds : Row := ⟨"RDS", 0x8000000000#40, 0xFFFFFFFFFF#40⟩

/-- The whole map, in the order of R49. -/
def opcodeMap : List Row :=
  [rowNop, rowLdk, rowLdl, rowLdh, rowEnc, rowDec, rowRdl, rowRdh, rowRds]

/-- The row of a command. -/
def rowOf : Instr → Row
  | .nop => rowNop
  | .ldk _ _ => rowLdk
  | .ldl _ => rowLdl
  | .ldh _ => rowLdh
  | .enc => rowEnc
  | .dec => rowDec
  | .rdl => rowRdl
  | .rdh => rowRdh
  | .rds => rowRds

/-! ## The decoder (R48, R51) -/

/-- The four classes of illegal word, R51 (a) to (d). The core records none of this (R110): the class is only the
name under which the decoder rejects the word. -/
inductive IllegalClass where
  /-- R51 (a): `op` in `0x9` .. `0xF`. -/
  | reservedOp
  /-- R51 (b): LDK with `idx` in 8..15. -/
  | keyIndexOutOfRange
  /-- R51 (c): LDL or LDH with `idx != 0`. -/
  | loadIndexNotZero
  /-- R51 (d): NOP, ENC, DEC, RDL, RDH, RDS with `idx != 0` or `imm != 0`. -/
  | fixedFieldNotZero
deriving DecidableEq, Repr

/-- What `decode` returns: a command or `Illegal` (R48). -/
inductive Decoded where
  | command (i : Instr)
  | illegal (why : IllegalClass)
deriving DecidableEq, Repr

/-- The class of R51 a word belongs to, read from its fields; meant for words that match no row. -/
def illegalClass (c : CmdWord) : IllegalClass :=
  if 9 ≤ (opField c).toNat then .reservedOp
  else if opField c = 0x1#4 then .keyIndexOutOfRange
  else if opField c = 0x2#4 ∨ opField c = 0x3#4 then .loadIndexNotZero
  else .fixedFieldNotZero

/-- `decode : u40 -> Command`, total (R48): the command whose row the word satisfies, with its operands as they
stand in the word (R50); a word of no row is illegal, under the name of its class (R51). -/
def decode (c : CmdWord) : Decoded :=
  if rowNop.hit c then .command .nop
  else if rowLdk.hit c then .command (.ldk (idxField c) (immField c))
  else if rowLdl.hit c then .command (.ldl (immField c))
  else if rowLdh.hit c then .command (.ldh (immField c))
  else if rowEnc.hit c then .command .enc
  else if rowDec.hit c then .command .dec
  else if rowRdl.hit c then .command .rdl
  else if rowRdh.hit c then .command .rdh
  else if rowRds.hit c then .command .rds
  else .illegal (illegalClass c)

/-- The decoder as the host's table check calls it. A command is one 40-bit number whose bit 0 is the table's bit 0
(R45, R53); a longer value is no command word (assumption log 3). -/
def decodeTableWord (nbits w : Nat) : Option Instr :=
  if nbits ≤ 40 ∧ w < 2 ^ 40 then
    match decode (BitVec.ofNat 40 w) with
    | .command i => some i
    | .illegal _ => none
  else none

/-! ## The encoder (R45, R49, R50) -/

/-- The word of a command: its opcode, its index field, its operand, every unused field zero. -/
def encode : Instr → CmdWord
  | .nop => assemble 0x0#4 0#4 0#32
  | .ldk idx imm => assemble 0x1#4 idx imm
  | .ldl imm => assemble 0x2#4 0#4 imm
  | .ldh imm => assemble 0x3#4 0#4 imm
  | .enc => assemble 0x4#4 0#4 0#32
  | .dec => assemble 0x5#4 0#4 0#32
  | .rdl => assemble 0x6#4 0#4 0#32
  | .rdh => assemble 0x7#4 0#4 0#32
  | .rds => assemble 0x8#4 0#4 0#32

/-- The one word of NOP, `0x00_00000000` (R47, R90). -/
def nopWord : CmdWord := 0x0000000000#40

/-- The one word of RDS, `0x80_00000000` (R47, R96). -/
def rdsWord : CmdWord := 0x8000000000#40

/-! ## Assembler spelling (R54) -/

/-- A 32-bit literal as R54 writes one: `0x` and hexadecimal digits, eight of them, in capitals. -/
def hexLiteral (w : Word) : String :=
  let digits := (Nat.toDigits 16 w.toNat).map Char.toUpper
  "0x" ++ String.ofList (List.replicate (8 - digits.length) '0' ++ digits)

/-- A command as R54 spells it: the mnemonic in capitals, then its operands separated by a comma. -/
def Instr.asm : Instr → String
  | .nop => "NOP"
  | .ldk idx imm => "LDK " ++ toString idx.toNat ++ ", " ++ hexLiteral imm
  | .ldl imm => "LDL " ++ hexLiteral imm
  | .ldh imm => "LDH " ++ hexLiteral imm
  | .enc => "ENC"
  | .dec => "DEC"
  | .rdl => "RDL"
  | .rdh => "RDH"
  | .rds => "RDS"

end Sys2Proof
end

