-- ==== Sys2Proof/Config.lean ====
section
/-! DEFINITION. What is fixed for one core and left open by the spec: the S-box contents (spec 00_scope.md R4,
40_sbox.md R60, R61, decision D10), and the order of a host step and a sequencer step that are both enabled
(00_scope.md R9: "Steps of the two agents interleave freely"). Both are constants with no body, so nothing can be
proved about a value of theirs. -/
namespace Sys2Proof

/-- The parameter `SBOX : (0..7) x (0..15) -> (0..15)` as a type (R4, R60, R63): table index, then entry index. -/
abbrev SBox := Fin 8 → Nibble → Nibble

/-- R61: in every table each value 0..15 appears exactly once. -/
abbrev SBox.IsPermutation (sb : SBox) : Prop :=
  ∀ t : Fin 8, ∀ m : Nibble, ∃ n : Nibble, sb t n = m ∧ ∀ n' : Nibble, sb t n' = m → n' = n

/-- The contents of the S-box ROM (R60, U1): OPEN in the spec, a free value of the model (assumption log 2).
Each table is a permutation by its type, which is all the spec says of it (R61). -/
opaque Config.sboxRom : Fin 8 → Equiv.Perm Nibble

/-- `SBOX(t, n)` of this core: the same function at every step of every run (R43, R64). -/
def Config.SBOX : SBox := fun t n => Config.sboxRom t n

/-- DESIGN CHOICE (assumption log 1): where both agents have an enabled step and the state's `schedule` says nothing,
whether the host moves first. A free value, one for each such choice (argument: the state's counter `choices`). -/
opaque Config.hostGoesFirst : Nat → Bool

end Sys2Proof
end

