-- ==== Sys2Proof/Machine/State.lean ====
section
/-! DEFINITION. The architectural state (spec 10_state.md), the environment's script, reset, and why a step can stop.
The register and flag fields bear the spec's names. -/
namespace Sys2Proof.Machine

/-- Mode: "a two-valued tag (Encrypt, Decrypt) selecting subkey traversal order" (R14). -/
inductive Mode where
  | encrypt
  | decrypt
deriving DecidableEq, Repr

/-- What the environment lets move next (R9: the two agents' steps "interleave freely"; R130: reset may happen in any
state). DESIGN CHOICE, assumption log 1: the interleaving is plain data. -/
inductive Turn where
  /-- The host moves first: its presented word is accepted if the core accepts it; otherwise the sequencer moves. -/
  | host
  /-- The sequencer moves first: it takes its enabled step if it has one; otherwise the host moves. -/
  | sequencer
  /-- The `rst` input (R130). `withdraw`: whether the host stops presenting the word it is presenting, which R130
  leaves to the host. -/
  | reset (withdraw : Bool)
deriving DecidableEq, Repr

/-- The state. The first eight fields are the whole state the spec gives the core (10_state.md, opening); `responses`
is the response stream (R39); `port`, `schedule` and `choices` are the environment's script, the model's own. The
S-box contents are a parameter, not state (R22, R60). -/
@[ext]
structure State where
  /-- Key register file `K[0..7]` (R12). -/
  K : Vector Word 8
  /-- Lower half of the block (R10). -/
  A : Word
  /-- Upper half of the block (R10). -/
  B : Word
  /-- Mode of the last transform started (R14). -/
  MODE : Mode
  /-- Round counter, 6 bits, legal values 0 to 32 (R15). -/
  RND : BitVec 6
  /-- A transform is running (R16). -/
  BUSY : Bool
  /-- The block held is the untouched output of a completed transform (R17). -/
  DONE : Bool
  /-- An illegal word has been accepted since reset; sticky (R18). -/
  ILL : Bool
  /-- The response stream, oldest first (R39): what left the core so far. -/
  responses : List Word
  /-- The host's words not yet accepted, in the order it presents them; the head is the word presented now (R9, R54). -/
  port : List CmdWord
  /-- The environment's choices still to come, one a step (assumption log 1). -/
  schedule : List Turn
  /-- How many choices were taken from the free value `Config.hostGoesFirst` (assumption log 1). -/
  choices : Nat
deriving DecidableEq, Repr

/-- The machine right after reset: R22's table, every register and flag zero, nothing presented, no response. The
model's own fields are empty (assumption log 4). -/
def State.reset : State where
  K := #v[0#32, 0#32, 0#32, 0#32, 0#32, 0#32, 0#32, 0#32]
  A := 0#32
  B := 0#32
  MODE := .encrypt
  RND := 0#6
  BUSY := false
  DONE := false
  ILL := false
  responses := []
  port := []
  schedule := []
  choices := 0

/-- Why the machine stops. The spec's own fault, IllegalCommand, is no stop: it sets `ILL` and the core goes on
(R110, R114); see `raiseIllegalCommand`. -/
inductive Fault where
  /-- Raised by a step when `BUSY == 1`, `RND` is 33 to 63 and the host has no acceptable word: no step is enabled
  (V5: "no sequencer step is enabled there: stuck, which is safe"). No run reaches it (R23). Safe. -/
  | sequencerStuck
deriving DecidableEq, Repr

/-- Why the model gives an instruction no meaning. -/
inductive Refusal where
  /-- An instruction of the table with no meaning yet, by mnemonic. No arm of `exec` answers it in this model. Safe. -/
  | notModelled (mnemonic : String)
deriving DecidableEq, Repr

/-- What a step or a meaning answers. -/
abbrev Result := Host.Outcome State Fault Refusal

end Sys2Proof.Machine
end

