-- ==== Sys2Proof/Machine/Flags.lean ====
section
/-! DEFINITION. The flags, their bits, the `STATUS` view and the level outputs that follow the flags (10_state.md R14,
R16 to R19; 30_encoding.md R46, R56; 60_exceptions.md R112). There are no arithmetic condition codes (R18). -/
namespace Sys2Proof.Machine

/-- R56: Encrypt is 0 and Decrypt is 1. -/
def Mode.bit : Mode → Bool
  | .encrypt => false
  | .decrypt => true

/-- `STATUS = zext_32((MODE, ILL, DONE, BUSY))`, `MODE` in bit 3 and `BUSY` in bit 0; bits 31:4 read as 0 (R19). -/
def statusWord (s : State) : Word :=
  (0#28 ++ BitVec.ofBool s.MODE.bit ++ BitVec.ofBool s.ILL ++ BitVec.ofBool s.DONE ++ BitVec.ofBool s.BUSY)

/-- The `busy` output: a level that equals `BUSY` (R46, R112). -/
def busyOutput (s : State) : Bool := s.BUSY

/-- The `done` output: a level that equals `DONE` (R46, R112). -/
def doneOutput (s : State) : Bool := s.DONE

/-- ENC and DEC: `MODE <- m`, `RND <- 0`, `BUSY <- 1`, `DONE <- 0` (R100, R101). -/
def armSequencer (m : Mode) (s : State) : State :=
  { s with MODE := m, RND := 0#6, BUSY := true, DONE := false }

end Sys2Proof.Machine
end

