-- ==== Sys2Proof/Machine/Operands.lean ====
section
/-! DEFINITION. Operand forms and field selections (00_scope.md R5, 10_state.md R11, 20_memory.md R31, 30_encoding.md
R50): which register an `idx` names, the halves and the nibbles of a value. -/
namespace Sys2Proof.Machine

/-- `lo32(x) = x[31:0]` (R5). -/
def lo32 (x : Block) : Word := x.extractLsb' 0 32

/-- `hi32(x) = x[63:32]` (R5). -/
def hi32 (x : Block) : Word := x.extractLsb' 32 32

/-- The pair of halves as one block, `(B, A)` with `B` upper: `(B << 32) or A` (R11). -/
def joinHalves (upper lower : Word) : Block := upper ++ lower

/-- `nib(v, i) = v[4i+3:4i]` (R5, R72). -/
def nib (v : Word) (i : Fin 8) : Nibble := v.extractLsb' (4 * i.val) 4

/-- The key register an `idx` names: 0..7 name `K[0]`..`K[7]`, 8..15 name no register (R32, R40, R50). -/
def keyIndex (idx : Nibble) : Option (BitVec 3) :=
  if idx.toNat < 8 then some (idx.setWidth 3) else none

/-- The ROM address `(t, n)` as one 7-bit number, `16*t + n` (R31; nothing observes it). -/
def romAddress (t : BitVec 3) (n : Nibble) : BitVec 7 := t ++ n

end Sys2Proof.Machine
end

