-- ==== Sys2Proof/Machine/Ops.lean ====
section
/-! DEFINITION. The named operations over registers, the response stream and the command port; the fault
IllegalCommand; the reset action. The core has no data memory and no program counter (20_memory.md R30, 10_state.md
R20), so there is no memory operation and no exception entry that moves a pc. -/
namespace Sys2Proof.Machine

/-! ## Registers -/

/-- Read of the key file (R12, R13): used by the ROUND step only. -/
def readKey (K : Vector Word 8) (i : BitVec 3) : Word := K[i.toNat]'i.isLt

/-- `K[i] <- w` (R91). -/
def writeKey (i : BitVec 3) (w : Word) (s : State) : State :=
  { s with K := s.K.set i.toNat w i.isLt }

/-- `A <- w ; DONE <- 0` (R92): a half the host overwrites is no result any more (R17). -/
def loadLower (w : Word) (s : State) : State := { s with A := w, DONE := false }

/-- `B <- w ; DONE <- 0` (R93). -/
def loadUpper (w : Word) (s : State) : State := { s with B := w, DONE := false }

/-- `BLK = (B, A)`, the block held (R11). -/
def heldBlock (s : State) : Block := joinHalves s.B s.A

/-- `respond(v)`: appends one word to the response stream (R7, R39). -/
def respond (v : Word) (s : State) : State := { s with responses := s.responses ++ [v] }

/-! ## The one fault (R110, R114, R115)

Taking it saves nothing, changes no mode and transfers control nowhere; there is no handler and no return. -/

/-- `raise IllegalCommand(c)`: `ILL <- 1` and nothing else (R110). Nothing of the word is recorded. -/
def raiseIllegalCommand (s : State) : State := { s with ILL := true }

/-! ## The busy hold (R47, R134) -/

/-- The acceptance condition: `BUSY == 0 or c == NOP or c == RDS` (R47). Also the output `cmd_ready` for the word
presented (R46). -/
def accepts (s : State) (c : CmdWord) : Bool := !s.BUSY || c == nopWord || c == rdsWord

/-- The guard "accepted only when `BUSY == 0`; held otherwise" of a command's rule. Held means: no step yet, nothing
changes (R47); a meaning called on a busy state answers that state (assumption log 5). -/
def whenQuiescent (act : State → State) (s : State) : Result :=
  if s.BUSY then .next s else .next (act s)

/-! ## Reset (R130, R132) -/

/-- The `rst` input: every register and flag to R22's value, in any state. No response is produced and none already
delivered is discarded (R22); a presented word is not consumed by the core, and `withdraw` says whether the host stops
presenting it (R130). -/
def resetAction (withdraw : Bool) (s : State) : State :=
  { State.reset with
    responses := s.responses
    port := if withdraw then s.port.tail else s.port
    schedule := s.schedule
    choices := s.choices }

end Sys2Proof.Machine
end

