-- ==== Sys2Proof/Machine/LoadRead.lean ====
section
/-! DEFINITION. The commands that move data or do nothing (44_cmd_load_read.md R90 to R96). The word has already left
the port when a meaning runs (`Agents.lean`). -/
namespace Sys2Proof.Machine

/-- NOP (R90): no state change, no response; accepted `BUSY` or not. -/
def execNop (s : State) : Result := .next s

/-- LDK (R91): `K[i] <- w`, nothing else. An `idx` of 8..15 names no register: such a word is no LDK but an illegal
word (R51 (b), R91 (a)), so the term with that `idx` raises IllegalCommand (assumption log 6). -/
def execLdk (idx : Nibble) (imm : Word) (s : State) : Result :=
  match keyIndex idx with
  | some i => whenQuiescent (writeKey i imm) s
  | none => whenQuiescent raiseIllegalCommand s

/-- LDL (R92): `A <- w ; DONE <- 0`. -/
def execLdl (imm : Word) (s : State) : Result := whenQuiescent (loadLower imm) s

/-- LDH (R93): `B <- w ; DONE <- 0`. -/
def execLdh (imm : Word) (s : State) : Result := whenQuiescent (loadUpper imm) s

/-- RDL (R94): `respond(A)`. -/
def execRdl (s : State) : Result := whenQuiescent (fun s => respond s.A s) s

/-- RDH (R95): `respond(B)`. -/
def execRdh (s : State) : Result := whenQuiescent (fun s => respond s.B s) s

/-- RDS (R96): `respond(STATUS)`, the flags as they are when it is accepted; accepted `BUSY` or not. -/
def execRds (s : State) : Result := .next (respond (statusWord s) s)

end Sys2Proof.Machine
end

