-- ==== Sys2Proof/Machine/Transform.lean ====
section
/-! DEFINITION. The commands that start a transform (45_cmd_transform.md R100 to R102). They compute nothing
themselves: they arm the sequencer, which reads the live registers. -/
namespace Sys2Proof.Machine

/-- ENC (R100): `MODE <- 0 ; RND <- 0 ; BUSY <- 1 ; DONE <- 0`. -/
def execEnc (s : State) : Result := whenQuiescent (armSequencer .encrypt) s

/-- DEC (R101): `MODE <- 1 ; RND <- 0 ; BUSY <- 1 ; DONE <- 0`. -/
def execDec (s : State) : Result := whenQuiescent (armSequencer .decrypt) s

end Sys2Proof.Machine
end

