-- ==== Sys2Proof/Machine/Dispatch.lean ====
section
/-! DEFINITION. The meaning of each command: one arm per constructor of `Instr`. -/
namespace Sys2Proof.Machine

def exec (i : Instr) (s : State) : Host.Outcome State Fault Refusal :=
  match i with
  | .nop => Sys2Proof.Machine.execNop s
  | .ldk idx imm => Sys2Proof.Machine.execLdk idx imm s
  | .ldl imm => Sys2Proof.Machine.execLdl imm s
  | .ldh imm => Sys2Proof.Machine.execLdh imm s
  | .enc => Sys2Proof.Machine.execEnc s
  | .dec => Sys2Proof.Machine.execDec s
  | .rdl => Sys2Proof.Machine.execRdl s
  | .rdh => Sys2Proof.Machine.execRdh s
  | .rds => Sys2Proof.Machine.execRds s

end Sys2Proof.Machine
end

