-- ==== Sys2Proof/Machine/Datapath.lean ====
section
/-! DEFINITION. The round function's combinational datapath (40_sbox.md, 42_round_function.md): modular adder,
nibble-parallel lookup, fixed rotator. Every function takes the S-box contents as an argument (R4, D10). -/
namespace Sys2Proof.Machine

/-- `substitute(t, n) = RomRead(t, n) = SBOX(t, n)` (R60). -/
def substitute (sb : SBox) (t : Fin 8) (n : Nibble) : Nibble := sb t n

/-- `modadd(h, k) = (h + k) mod 0xFFFFFFFF`: the exact 33-bit sum, then the remainder (R71; 90_conflicts.md C1). -/
def modadd (h k : Word) : Word := BitVec.ofNat 32 ((h.toNat + k.toNat) % 0xFFFFFFFF)

/-- The gate form of the adder given in R71: an end-around carry, then all-ones folded to zero. -/
def modaddGates (h k : Word) : Word :=
  let s : BitVec 33 := h.setWidth 33 + k.setWidth 33
  let c : Word := (s.extractLsb' 32 1).setWidth 32
  let l : Word := s.extractLsb' 0 32
  let t : Word := l + c
  if t = 0xFFFFFFFF#32 then 0#32 else t

/-- Lane `i` of the lookup: nibble `i` through table `i`, back in nibble position `i` (R73, R74). -/
def substLane (sb : SBox) (v : Word) (i : Fin 8) : Word :=
  (substitute sb i (nib v i)).setWidth 32 <<< (4 * i.val)

/-- `subst32(v)`: the eight substituted nibbles in the bit positions they came from (R74). -/
def subst32 (sb : SBox) (v : Word) : Word :=
  substLane sb v 0 + substLane sb v 1 + substLane sb v 2 + substLane sb v 3
    + substLane sb v 4 + substLane sb v 5 + substLane sb v 6 + substLane sb v 7

/-- `rotl11(v) = trunc32(v << 11) or (v >> 21)` (R75). -/
def rotl11 (v : Word) : Word := (v <<< 11) ||| (v >>> 21)

/-- `roundMix(h, k) = rotl11(subst32(modadd(h, k)))` (R76). -/
def roundMix (sb : SBox) (h k : Word) : Word := rotl11 (subst32 sb (modadd h k))

end Sys2Proof.Machine
end

