-- ==== Sys2Proof/Machine/KeySchedule.lean ====
section
/-! DEFINITION. The key schedule engine (41_key_schedule.md): a selector over the key file that stores nothing (R69). -/
namespace Sys2Proof.Machine

/-- `kidx(j)`: `j mod 8` for `j` in 0..23, `7 - (j mod 8)` for `j` in 24..31 (R66). -/
def kidx (j : BitVec 5) : BitVec 3 :=
  BitVec.ofNat 3 (if j.toNat ≤ 23 then j.toNat % 8 else 7 - j.toNat % 8)

/-- `subkey(j) = K[kidx(j)]` (R67). -/
def subkey (K : Vector Word 8) (j : BitVec 5) : Word := readKey K (kidx j)

/-- `deriveSubkeys(K)`: the 32 subkeys in position order (R67). -/
def deriveSubkeys (K : Vector Word 8) : List Word :=
  (List.range 32).map fun j => subkey K (BitVec.ofNat 5 j)

/-- `pos(MODE, i)`: the subkey position of round `i`, `i` if Encrypt, `31 - i` if Decrypt (R70). -/
def pos (m : Mode) (i : BitVec 5) : BitVec 5 :=
  match m with
  | .encrypt => i
  | .decrypt => 31#5 - i

end Sys2Proof.Machine
end

