-- ==== Sys2Proof/Machine/Feistel.lean ====
section
/-! DEFINITION. The Feistel core (43_feistel_core.md): the source's function `transformBlock` (R80) and the two
sequencer steps that compute it in place (R81, R82). -/
namespace Sys2Proof.Machine

/-! ## The function (R80) -/

/-- One pass of the source's loop body at round `i` on the pair `(a, b)`: XOR the mixing value into `a`, then swap. -/
def loopPass (sb : SBox) (K : Vector Word 8) (m : Mode) (i : BitVec 5) (p : Word × Word) : Word × Word :=
  (p.2, p.1 ^^^ roundMix sb p.2 (subkey K (pos m i)))

/-- The pair `(a, b)` after the first `n` passes, rounds `0` to `n - 1`. -/
def loopPasses (sb : SBox) (K : Vector Word 8) (m : Mode) : Nat → Word × Word → Word × Word
  | 0, p => p
  | n + 1, p => loopPass sb K m (BitVec.ofNat 5 n) (loopPasses sb K m n p)

/-- `transformBlock(x, K, m)` (R80): 32 passes, one final swap, the halves joined with `b` upper. -/
def transformBlock (sb : SBox) (x : Block) (K : Vector Word 8) (m : Mode) : Block :=
  let p := loopPasses sb K m 32 (lo32 x, hi32 x)
  joinHalves p.1 p.2

/-- `encrypt(x, K) = transformBlock(x, K, 0)` (R80). -/
def encrypt (sb : SBox) (x : Block) (K : Vector Word 8) : Block := transformBlock sb x K .encrypt

/-- `decrypt(x, K) = transformBlock(x, K, 1)` (R80). -/
def decrypt (sb : SBox) (x : Block) (K : Vector Word 8) : Block := transformBlock sb x K .decrypt

/-! ## The sequencer (R81 to R83) -/

/-- ROUND (R81): `A <- B`, `B <- A xor roundMix(B, K[kidx(pos(MODE, RND))])`, `RND <- RND + 1`, every right-hand side
from before the step. -/
def roundStep (sb : SBox) (s : State) : State :=
  { s with
    A := s.B
    B := s.A ^^^ roundMix sb s.B (subkey s.K (pos s.MODE (s.RND.setWidth 5)))
    RND := s.RND + 1#6 }

/-- FINAL (R82): the halves swap, `RND <- 0`, `BUSY <- 0`, `DONE <- 1`. -/
def finalStep (s : State) : State :=
  { s with A := s.B, B := s.A, RND := 0#6, BUSY := false, DONE := true }

/-- The sequencer has an enabled step: `BUSY == 1` and `RND` is 0 to 32 (R81, R82 guards; V5 above 32). -/
def sequencerEnabled (s : State) : Bool := s.BUSY && decide (s.RND.toNat ≤ 32)

/-- The sequencer's step in a state where it has one: ROUND if `RND < 32`, FINAL if `RND == 32` (R9, R83). -/
def sequencerStep (sb : SBox) (s : State) : State :=
  if s.RND.toNat < 32 then roundStep sb s else finalStep s

end Sys2Proof.Machine
end

