-- ==== Sys2Proof/Machine/Agents.lean ====
section
/-! DEFINITION. The two agents and who moves (00_scope.md R9, 20_memory.md R41, 30_encoding.md R47, 70_reset_and_hazards.md
R130, R138). One step of the model is one step of one agent, or one reset. The S-box contents and the free order of two
enabled agents are arguments here; `Step.lean` gives them `Config`'s. -/
namespace Sys2Proof.Machine

/-- The word presented at the command port, if the host has one to present (`cmd_valid`, R46). -/
def presented (s : State) : Option CmdWord := s.port.head?

/-- The host has an enabled step: the word it presents is accepted (R9, R47). -/
def hostEnabled (s : State) : Bool :=
  match s.port with
  | [] => false
  | c :: _ => accepts s c

/-- An accepted word's rule, in the state whose port no longer holds it: the command's meaning, or IllegalCommand for a
word that decodes to no command (R48, R110). -/
def performWord (c : CmdWord) (s : State) : Result :=
  match decode c with
  | .command i => exec i s
  | .illegal _ => .next (raiseIllegalCommand s)

/-- The host's step: the presented word is consumed and performed (R9). -/
def hostStep (s : State) : Result :=
  match s.port with
  | [] => .next s
  | c :: rest => performWord c { s with port := rest }

/-- One step of an agent: the host's if it has one and either the sequencer has none or `hostFirst` holds; else the
sequencer's if it has one. With no step enabled a quiescent core waits and keeps all state (R121; assumption log 7); a
busy one is stuck (V5). -/
def agentsStep (sb : SBox) (hostFirst : Bool) (s : State) : Result :=
  if hostEnabled s && (!sequencerEnabled s || hostFirst) then hostStep s
  else if sequencerEnabled s then .next (sequencerStep sb s)
  else if s.BUSY then .fault .sequencerStuck
  else .next s

/-- Which agent moves first where both have an enabled step: the schedule's next entry says; with the schedule used up,
the free value (assumption log 1). -/
def hostFirst (free : Nat → Bool) (s : State) : Bool :=
  match s.schedule with
  | .host :: _ => true
  | .sequencer :: _ => false
  | .reset _ :: _ => false
  | [] => free s.choices

/-- The state once the environment's entry for this step is used: the schedule loses its head; the choice counter
advances where a free choice is taken. -/
def afterTurn (s : State) : State :=
  { s with
    schedule := s.schedule.tail
    choices := if s.schedule.isEmpty && hostEnabled s && sequencerEnabled s then s.choices + 1 else s.choices }

/-- One step of the machine under S-box contents `sb` and free order `free`: reset where the schedule's head says so,
which wins over any step (R113, R130); else a step of the agents. -/
def stepWith (sb : SBox) (free : Nat → Bool) (s : State) : Result :=
  match s.schedule with
  | .reset w :: _ => .next (resetAction w (afterTurn s))
  | .host :: _ => agentsStep sb (hostFirst free s) (afterTurn s)
  | .sequencer :: _ => agentsStep sb (hostFirst free s) (afterTurn s)
  | [] => agentsStep sb (hostFirst free s) (afterTurn s)

/-- The state in which the word `w` is presented before all others and the host is on turn (assumption log 3). -/
def presentWord (w : Nat) (s : State) : State :=
  { s with port := BitVec.ofNat 40 w :: s.port, schedule := .host :: s.schedule }

end Sys2Proof.Machine
end

