-- ==== Sys2Proof/Machine/Step.lean ====
section
/-! DEFINITION. The step of the machine, with this core's S-box contents and the free order of `Config`. -/
namespace Sys2Proof.Machine

/-- One step: one command accepted, one sequencer step, one reset, or nothing to do (R8, R9). -/
def step (s : State) : Host.Outcome State Fault Refusal :=
  stepWith Config.SBOX Config.hostGoesFirst s

/-- The core fetches nothing (R20): a program is the list of words the host presents. The word `w` is put before them
and the host is on turn, so the next step accepts and performs it if the core accepts it (assumption log 3). A command
has 40 bits whatever `nbits` says, the bits above `nbits` zero. -/
def State.withFetchWord (s : State) (_nbits w : Nat) : State := presentWord w s

end Sys2Proof.Machine
end

