-- ==== Sys2Proof/Machine/Layout.lean ====
section
/-! DEFINITION. The layout contract and the pseudo-instructions by which a host feeds the core (20_memory.md R33 to
R35, 30_encoding.md R55, 45_cmd_transform.md R103). Duties of the host, not behaviour of the core. -/
namespace Sys2Proof.Machine

/-- The number whose least significant byte is the first of `ys`. -/
def bytesValue : List Byte → Nat
  | [] => 0
  | y :: ys => y.toNat + 256 * bytesValue ys

/-- The block of at most 8 input bytes, `y0` least significant (R33); missing bytes are zero (R35). -/
def packBlock (ys : List Byte) : Block := BitVec.ofNat 64 (bytesValue ys)

/-- The key file of four 64-bit components: `K[2j] = lo32(c_j)`, `K[2j+1] = hi32(c_j)` (R34). -/
def keyOfComponents (c0 c1 c2 c3 : Block) : Vector Word 8 :=
  #v[lo32 c0, hi32 c0, lo32 c1, hi32 c1, lo32 c2, hi32 c2, lo32 c3, hi32 c3]

/-- `LOADKEY c0, c1, c2, c3` (R55). -/
def loadKeyProgram (c0 c1 c2 c3 : Block) : List Instr :=
  [.ldk 0#4 (lo32 c0), .ldk 1#4 (hi32 c0), .ldk 2#4 (lo32 c1), .ldk 3#4 (hi32 c1),
   .ldk 4#4 (lo32 c2), .ldk 5#4 (hi32 c2), .ldk 6#4 (lo32 c3), .ldk 7#4 (hi32 c3)]

/-- `LOADBLK x` (R55). -/
def loadBlockProgram (x : Block) : List Instr := [.ldl (lo32 x), .ldh (hi32 x)]

/-- `LOADBYTES y0, .., y(m-1)` with `m <= 8` (R55). -/
def loadBytesProgram (ys : List Byte) : List Instr := loadBlockProgram (packBlock ys)

/-- `READBLK` (R55): the block read is `(second response, first response)`. -/
def readBlockProgram : List Instr := [.rdl, .rdh]

/-- `ENCRYPT x` (R55). -/
def encryptProgram (x : Block) : List Instr := loadBlockProgram x ++ [.enc] ++ readBlockProgram

/-- `DECRYPT x` (R55). -/
def decryptProgram (x : Block) : List Instr := loadBlockProgram x ++ [.dec] ++ readBlockProgram

/-- A list of commands as the words the host presents, in order (R54). -/
def programWords (p : List Instr) : List CmdWord := p.map encode

end Sys2Proof.Machine
end

