-- ==== Sys2Proof/Machine/Run.lean ====
section
/-! DEFINITION. Runs of many steps, for claims about whole transforms and programs. -/
namespace Sys2Proof.Machine

/-- `n` steps under S-box contents `sb` and free order `free`, stopping at the first fault or refusal. -/
def runWith (sb : SBox) (free : Nat → Bool) : Nat → State → Result
  | 0, s => .next s
  | n + 1, s =>
    match stepWith sb free s with
    | .next t => runWith sb free n t
    | .fault f => .fault f
    | .refused r => .refused r

/-- `n` steps of this core. -/
def run (n : Nat) (s : State) : Result := runWith Config.SBOX Config.hostGoesFirst n s

end Sys2Proof.Machine
end

