-- ==== Sys2Proof/Safety.lean ====
section
/-! DEFINITION. The terms in which claims say that a state or a run is sound (10_state.md R23, 60_exceptions.md R110,
70_reset_and_hazards.md R139). -/
namespace Sys2Proof.Machine

/-- The invariant of R23, clause by clause. -/
structure State.Inv (s : State) : Prop where
  /-- `RND <= 32`. -/
  rnd_le : s.RND.toNat ≤ 32
  /-- `BUSY == 0` implies `RND == 0`. -/
  rnd_quiescent : s.BUSY = false → s.RND = 0#6
  /-- `BUSY == 1` implies `DONE == 0`. -/
  done_busy : s.BUSY = true → s.DONE = false
  /-- `STATUS[31:4] == 0`. -/
  status_reserved : (statusWord s).extractLsb' 4 28 = 0#28

/-- "Quiescent: `BUSY == 0`" (00_scope.md, glossary). -/
abbrev State.Quiescent (s : State) : Prop := s.BUSY = false

/-- End of a run: every command accepted and `BUSY == 0` (R139). -/
abbrev State.Finished (s : State) : Prop := s.port = [] ∧ s.BUSY = false

/-- No illegal word was accepted since reset: the premise R110 asks of a claim about a run. -/
abbrev State.NoIllegal (s : State) : Prop := s.ILL = false

/-- The environment's script holds no reset. -/
abbrev State.NoResetAhead (s : State) : Prop := ∀ t ∈ s.schedule, ∀ w, t ≠ .reset w

/-- The step from `s` to `t` takes the word presented in `s`: it is accepted, and the port loses exactly it. -/
def wordTaken (s t : State) (c : CmdWord) : Prop := s.port = c :: t.port ∧ accepts s c = true

/-- No reset happens in this step. -/
def noResetNow (s : State) : Prop := ∀ w sch, s.schedule ≠ .reset w :: sch

/-- In this step the host's enabled step, if it has one, is the one taken. -/
def hostMoves (s : State) : Prop :=
  noResetNow s ∧ (sequencerEnabled s = false ∨ hostFirst Config.hostGoesFirst s = true)

/-- In this step the sequencer's enabled step, if it has one, is the one taken. -/
def sequencerMoves (s : State) : Prop :=
  noResetNow s ∧ (hostEnabled s = false ∨ hostFirst Config.hostGoesFirst s = false)

/-- The commands a busy core holds: all but NOP and RDS (R47). -/
def heldWhileBusy : Instr → Bool
  | .nop => false
  | .ldk _ _ => true
  | .ldl _ => true
  | .ldh _ => true
  | .enc => true
  | .dec => true
  | .rdl => true
  | .rdh => true
  | .rds => false

/-- The command that starts a transform in mode `m` (R100, R101). -/
def startCommand : Mode → Instr
  | .encrypt => .enc
  | .decrypt => .dec

/-- The words a command appends to the response stream when it is accepted in `s` (R39, R94 to R96). -/
def answerOf (s : State) : Instr → List Word
  | .nop => []
  | .ldk _ _ => []
  | .ldl _ => []
  | .ldh _ => []
  | .enc => []
  | .dec => []
  | .rdl => [s.A]
  | .rdh => [s.B]
  | .rds => [statusWord s]

/-- The bits of the response to a word that no schedule can change: all 32 for RDL and RDH, all but `BUSY` and `DONE`
for RDS, no response for any other word (93_implementation_defined.md, end of section 2). -/
def scheduleFreeBits (c : CmdWord) : Option Word :=
  if decode c = .command .rdl ∨ decode c = .command .rdh then some 0xFFFFFFFF#32
  else if decode c = .command .rds then some 0xFFFFFFFC#32
  else none

/-- The program of R103: load a key and a block, transform in mode `m`, read the block back. -/
def transformProgram (m : Mode) (c0 c1 c2 c3 x : Block) : List Instr :=
  loadKeyProgram c0 c1 c2 c3 ++ loadBlockProgram x ++ [startCommand m] ++ readBlockProgram

end Sys2Proof.Machine
end

