-- ==== Sys2Proof/Certificates/Slice0/Obligations.lean ====
section
/-! DEFINITION. What is to be proved of the model, each a `Prop` whose docstring names the rule of spec/ it formalises. -/

open Sys2Proof Sys2Proof.Machine

/-! ## Encoding -/

/-- R45, R48, R49, R50: the word of a well-formed command decodes to that command, with every operand it carried. -/
def Obligations.DecodeOfEncode : Prop :=
  ∀ i : Instr, i.wellFormed = true → decode (encode i) = .command i

/-- R49, R50: a command has exactly one spelling; a word that decodes to a command is that command's own word, and the
command is well formed. -/
def Obligations.EncodeOfDecode : Prop :=
  ∀ (c : CmdWord) (i : Instr), decode c = .command i → i.wellFormed = true ∧ encode i = c

/-- R48: a word decodes to the command whose row of R49 it satisfies, an LDK with an index in 0..7; at most one row
matches; a word that matches no row is illegal. -/
def Obligations.DecodeFollowsTheRows : Prop :=
  (∀ c : CmdWord, (opcodeMap.filter fun r => r.hit c).length ≤ 1) ∧
  (∀ c : CmdWord, (∃ why, decode c = .illegal why) ↔ ∀ r ∈ opcodeMap, r.hit c = false) ∧
  (∀ (c : CmdWord) (i : Instr), decode c = .command i → (rowOf i).hit c = true ∧ i.wellFormed = true)

/-- R51: the words of no row are illegal; they are exactly the four classes (a) to (d), and an accepted one sets `ILL`
and changes nothing else. -/
def Obligations.IllegalWordsExactly : Prop :=
  (∀ c : CmdWord, (∀ r ∈ opcodeMap, r.hit c = false) ↔ ∃ why, decode c = .illegal why) ∧
  (∀ c : CmdWord, decode c = .illegal .reservedOp ↔ 9 ≤ (opField c).toNat) ∧
  (∀ c : CmdWord, decode c = .illegal .keyIndexOutOfRange ↔
    opField c = 0x1#4 ∧ 8 ≤ (idxField c).toNat) ∧
  (∀ c : CmdWord, decode c = .illegal .loadIndexNotZero ↔
    (opField c = 0x2#4 ∨ opField c = 0x3#4) ∧ idxField c ≠ 0#4) ∧
  (∀ c : CmdWord, decode c = .illegal .fixedFieldNotZero ↔
    (opField c = 0x0#4 ∨ (4 ≤ (opField c).toNat ∧ (opField c).toNat ≤ 8)) ∧
      (idxField c ≠ 0#4 ∨ immField c ≠ 0#32)) ∧
  (∀ (c : CmdWord) (why : IllegalClass) (s : State), decode c = .illegal why →
    performWord c s = .next { s with ILL := true })

/-- R49, R54 and the decode vectors: words written out by hand from the fields of R45 decode to the command they
stand for, one for every command. -/
def Obligations.WrittenOutWordsDecode : Prop :=
  decode 0x0000000000#40 = .command .nop ∧
  decode 0x1311121314#40 = .command (.ldk 3#4 0x11121314#32) ∧
  decode 0x17FFFFFFFF#40 = .command (.ldk 7#4 0xFFFFFFFF#32) ∧
  decode 0x2089ABCDEF#40 = .command (.ldl 0x89ABCDEF#32) ∧
  decode 0x3001234567#40 = .command (.ldh 0x01234567#32) ∧
  decode 0x4000000000#40 = .command .enc ∧
  decode 0x5000000000#40 = .command .dec ∧
  decode 0x6000000000#40 = .command .rdl ∧
  decode 0x7000000000#40 = .command .rdh ∧
  decode 0x8000000000#40 = .command .rds ∧
  decode 0x1800000000#40 = .illegal .keyIndexOutOfRange ∧
  decode 0x4000000001#40 = .illegal .fixedFieldNotZero

/-! ## The commands: word, acceptance, effect

Each says that the command completes, and what it leaves: every field not named in the next state is as before. -/

/-- R90: NOP is one word, accepted in any state, and changes nothing. -/
def Obligations.NopChangesNothing : Prop :=
  ∀ s : State, encode .nop = 0x0000000000#40 ∧ accepts s (encode .nop) = true ∧ exec .nop s = .next s

/-- R91: LDK i, w writes `K[i]` and nothing else; accepted only when `BUSY == 0`; `idx` 8..15 is not LDK but an
illegal word. -/
def Obligations.LdkWritesOneKeyWord : Prop :=
  ∀ (idx : Nibble) (w : Word) (s : State),
    (idx.toNat < 8 →
      encode (.ldk idx w) = (0x1#4 ++ idx ++ w : BitVec 40) ∧
      accepts s (encode (.ldk idx w)) = !s.BUSY ∧
      (s.BUSY = false → ∃ t, exec (.ldk idx w) s = .next t ∧
        (∀ j : BitVec 3, readKey t.K j = if j.toNat = idx.toNat then w else readKey s.K j) ∧
        t = { s with K := t.K })) ∧
    (8 ≤ idx.toNat → ∃ why, decode (0x1#4 ++ idx ++ w : BitVec 40) = .illegal why)

/-- R92: LDL w writes `A`, clears `DONE`, and changes nothing else; accepted only when `BUSY == 0`. -/
def Obligations.LdlLoadsLowerHalf : Prop :=
  ∀ (w : Word) (s : State),
    encode (.ldl w) = (0x2#4 ++ 0#4 ++ w : BitVec 40) ∧
    accepts s (encode (.ldl w)) = !s.BUSY ∧
    (s.BUSY = false → exec (.ldl w) s = .next { s with A := w, DONE := false })

/-- R93: LDH w writes `B`, clears `DONE`, and changes nothing else; accepted only when `BUSY == 0`. -/
def Obligations.LdhLoadsUpperHalf : Prop :=
  ∀ (w : Word) (s : State),
    encode (.ldh w) = (0x3#4 ++ 0#4 ++ w : BitVec 40) ∧
    accepts s (encode (.ldh w)) = !s.BUSY ∧
    (s.BUSY = false → exec (.ldh w) s = .next { s with B := w, DONE := false })

/-- R94: RDL responds with `A` and changes nothing; accepted only when `BUSY == 0`. -/
def Obligations.RdlRespondsLowerHalf : Prop :=
  ∀ s : State,
    encode .rdl = 0x6000000000#40 ∧ accepts s (encode .rdl) = !s.BUSY ∧
    (s.BUSY = false → exec .rdl s = .next { s with responses := s.responses ++ [s.A] })

/-- R95: RDH responds with `B` and changes nothing; accepted only when `BUSY == 0`. -/
def Obligations.RdhRespondsUpperHalf : Prop :=
  ∀ s : State,
    encode .rdh = 0x7000000000#40 ∧ accepts s (encode .rdh) = !s.BUSY ∧
    (s.BUSY = false → exec .rdh s = .next { s with responses := s.responses ++ [s.B] })

/-- R19: `STATUS` holds `BUSY` in bit 0, `DONE` in bit 1, `ILL` in bit 2, `MODE` in bit 3 (0 Encrypt, 1 Decrypt) and
0 in bits 31:4, and is 0 after reset; RDS returns it; in a state of R23's invariant `BUSY` and `DONE` are not both 1. -/
def Obligations.StatusIsTheFlagView : Prop :=
  ∀ s : State,
    (statusWord s).getLsbD 0 = s.BUSY ∧
    (statusWord s).getLsbD 1 = s.DONE ∧
    (statusWord s).getLsbD 2 = s.ILL ∧
    ((statusWord s).getLsbD 3 = true ↔ s.MODE = .decrypt) ∧
    (∀ n, 4 ≤ n → (statusWord s).getLsbD n = false) ∧
    (s.Inv → ((statusWord s).getLsbD 0 && (statusWord s).getLsbD 1) = false) ∧
    statusWord State.reset = 0#32 ∧
    exec .rds s = .next { s with responses := s.responses ++ [statusWord s] }

/-- R96: RDS responds with `STATUS` as it is when accepted, in any state, and changes nothing; the possible responses, in
states of R23's invariant, are exactly the twelve values listed. -/
def Obligations.RdsRespondsStatus : Prop :=
  (∀ s : State,
    encode .rds = 0x8000000000#40 ∧ accepts s (encode .rds) = true ∧
    exec .rds s = .next { s with responses := s.responses ++ [statusWord s] } ∧
    statusWord s = (0#28 ++ (BitVec.ofBool (s.MODE = .decrypt) ++ (BitVec.ofBool s.ILL ++
      (BitVec.ofBool s.DONE ++ BitVec.ofBool s.BUSY))) : BitVec 32)) ∧
  (∀ v : Word, v ∈ [0x0#32, 0x1#32, 0x2#32, 0x4#32, 0x5#32, 0x6#32, 0x8#32, 0x9#32, 0xA#32, 0xC#32, 0xD#32, 0xE#32] ↔
    ∃ s : State, s.Inv ∧ statusWord s = v)

/-- R100, the command's own step: `MODE <- 0`, `RND <- 0`, `BUSY <- 1`, `DONE <- 0`, nothing else. -/
def Obligations.EncArmsTheSequencer : Prop :=
  ∀ s : State,
    encode .enc = 0x4000000000#40 ∧ accepts s (encode .enc) = !s.BUSY ∧
    (s.BUSY = false →
      exec .enc s = .next { s with MODE := .encrypt, RND := 0#6, BUSY := true, DONE := false })

/-- R101, the command's own step: `MODE <- 1`, `RND <- 0`, `BUSY <- 1`, `DONE <- 0`, nothing else. -/
def Obligations.DecArmsTheSequencer : Prop :=
  ∀ s : State,
    encode .dec = 0x5000000000#40 ∧ accepts s (encode .dec) = !s.BUSY ∧
    (s.BUSY = false →
      exec .dec s = .next { s with MODE := .decrypt, RND := 0#6, BUSY := true, DONE := false })

/-- The model's choice (assumption log 5), after R47's "held: it has no step, changes nothing": the meaning of a
holdable command, called on a busy state, answers that state. -/
def Obligations.HeldMeaningAnswersTheSameState : Prop :=
  ∀ (i : Instr) (s : State), heldWhileBusy i = true → s.BUSY = true → exec i s = .next s

/-- The model's choice (assumption log 6), after R51 (b) and R91 (a): the term `ldk` with an index that names no
register raises IllegalCommand. -/
def Obligations.LdkTermWithReservedIndexIsIllegal : Prop :=
  ∀ (idx : Nibble) (w : Word) (s : State), 8 ≤ idx.toNat → s.BUSY = false →
    exec (.ldk idx w) s = .next { s with ILL := true }

/-! ## Frames: what a command leaves unchanged -/

/-- R90 to R93: NOP, LDK, LDL, LDH leave unchanged every key word but the one LDK names, `A` but for LDL, `B` but for
LDH, `MODE`, `RND`, `BUSY`, `DONE` but for LDL and LDH, `ILL`, the response stream and the environment's script. -/
def Obligations.LoadFrame : Prop :=
  ∀ (i : Instr) (s t : State), i.wellFormed = true →
    (i = .nop ∨ (∃ idx w, i = .ldk idx w) ∨ (∃ w, i = .ldl w) ∨ (∃ w, i = .ldh w)) → exec i s = .next t →
    (∀ j : BitVec 3, (∀ idx w, i = .ldk idx w → idx.toNat ≠ j.toNat) → readKey t.K j = readKey s.K j) ∧
    ((∀ w, i ≠ .ldl w) → t.A = s.A) ∧ ((∀ w, i ≠ .ldh w) → t.B = s.B) ∧
    ((∀ w, i ≠ .ldl w) → (∀ w, i ≠ .ldh w) → t.DONE = s.DONE) ∧
    t.MODE = s.MODE ∧ t.RND = s.RND ∧ t.BUSY = s.BUSY ∧ t.ILL = s.ILL ∧ t.responses = s.responses ∧
    t.port = s.port ∧ t.schedule = s.schedule ∧ t.choices = s.choices

/-- R94 to R96, R38: RDL, RDH, RDS leave every register, every flag and the environment's script unchanged, and the
responses already delivered. -/
def Obligations.ReadFrame : Prop :=
  ∀ (i : Instr) (s t : State), (i = .rdl ∨ i = .rdh ∨ i = .rds) → exec i s = .next t →
    t.K = s.K ∧ t.A = s.A ∧ t.B = s.B ∧ t.MODE = s.MODE ∧ t.RND = s.RND ∧ t.BUSY = s.BUSY ∧ t.DONE = s.DONE ∧
    t.ILL = s.ILL ∧ s.responses <+: t.responses ∧
    t.port = s.port ∧ t.schedule = s.schedule ∧ t.choices = s.choices

/-- R100 to R102: ENC and DEC change neither key nor block, do not clear `ILL` and respond nothing. -/
def Obligations.StartFrame : Prop :=
  ∀ (i : Instr) (s t : State), (i = .enc ∨ i = .dec) → exec i s = .next t →
    t.K = s.K ∧ t.A = s.A ∧ t.B = s.B ∧ t.ILL = s.ILL ∧ t.responses = s.responses ∧
    t.port = s.port ∧ t.schedule = s.schedule ∧ t.choices = s.choices

/-! ## One step of the machine -/

/-- When the word presented decodes to a command and is accepted, and the host moves, the step is the command's
meaning in the state whose port no longer holds the word (R9, R47, R48). Around it the step only uses up the
environment's entry, which is the model's (assumption log 1): `afterTurn`. On a quiescent state without a reset the
host always moves. -/
def Obligations.StepRunsTheDecodedCommand : Prop :=
  (∀ (s : State) (c : CmdWord) (rest : List CmdWord) (i : Instr),
    s.port = c :: rest → decode c = .command i → accepts s c = true → hostMoves s →
    step s = exec i { afterTurn s with port := rest }) ∧
  (∀ s : State, s.BUSY = false → noResetNow s → hostMoves s) ∧
  (∀ (s : State) (sch : List Turn), s.schedule = .host :: sch → hostMoves s) ∧
  (∀ s : State, s.schedule = [] → (hostEnabled s = false ∨ sequencerEnabled s = false) → afterTurn s = s)

/-- The model's loading of a word (assumption log 3): on a quiescent state, and for NOP and RDS on any state, the step
after `withFetchWord` runs exactly the instruction the decoder reads from the word. -/
def Obligations.FetchedWordRunsNext : Prop :=
  ∀ (s : State) (nbits w : Nat) (i : Instr), decodeTableWord nbits w = some i →
    (s.BUSY = false ∨ heldWhileBusy i = false) → step (s.withFetchWord nbits w) = exec i s

/-- R110: an accepted illegal word sets `ILL` and nothing else, produces no response and is consumed; no legal command
changes `ILL`. -/
def Obligations.IllegalWordSetsOnlyIll : Prop :=
  (∀ (s : State) (c : CmdWord) (rest : List CmdWord) (why : IllegalClass),
    s.port = c :: rest → decode c = .illegal why → s.BUSY = false → noResetNow s →
    step s = .next { s with port := rest, ILL := true, schedule := s.schedule.tail }) ∧
  (∀ (i : Instr) (s t : State), i.wellFormed = true → exec i s = .next t → t.ILL = s.ILL)

/-- R81: ROUND, whenever the sequencer moves with `RND < 32`, every right-hand side from before the step. When it moves
is `sequencerMoves` (assumption log 1); `afterTurn` touches no register. -/
def Obligations.RoundStepIsOnePass : Prop :=
  ∀ s : State, sequencerMoves s → s.BUSY = true → s.RND.toNat < 32 →
    ∃ t, step s = .next t ∧
      t.A = s.B ∧
      t.B = s.A ^^^ roundMix Config.SBOX s.B
        (readKey s.K (kidx (if s.MODE = .encrypt then s.RND.setWidth 5 else 31#5 - s.RND.setWidth 5))) ∧
      t.RND.toNat = s.RND.toNat + 1 ∧
      t = { afterTurn s with A := t.A, B := t.B, RND := t.RND }

/-- R82: FINAL, whenever the sequencer moves with `RND == 32`; after it the sequencer has no enabled step and every
word is accepted. When it moves is `sequencerMoves` (assumption log 1); `afterTurn` touches no register. -/
def Obligations.FinalStepSwapsAndStops : Prop :=
  ∀ s : State, sequencerMoves s → s.BUSY = true → s.RND = 32#6 →
    ∃ t, step s = .next t ∧
      t = { afterTurn s with A := s.B, B := s.A, RND := 0#6, BUSY := false, DONE := true } ∧
      sequencerEnabled t = false ∧ ∀ c, accepts t c = true

/-- R47: a word is accepted exactly when `BUSY == 0` or it is NOP or RDS; an accepted word, when the host moves, is
performed as one step. A word not accepted has no step: it stays presented and changes nothing the host can read, and
without a reset only FINAL lifts the hold. -/
def Obligations.HeldWordStaysPresented : Prop :=
  (∀ (s : State) (c : CmdWord), accepts s c = true ↔ s.BUSY = false ∨ c = 0x0000000000#40 ∨ c = 0x8000000000#40) ∧
  (∀ (s : State) (c : CmdWord) (rest : List CmdWord), s.port = c :: rest → accepts s c = true → hostMoves s →
    step s = performWord c { afterTurn s with port := rest }) ∧
  (∀ (s t : State) (c : CmdWord) (rest : List CmdWord), s.port = c :: rest → accepts s c = false →
    noResetNow s → step s = .next t →
    t.port = s.port ∧ t.responses = s.responses ∧ t.K = s.K ∧ t.MODE = s.MODE ∧ t.ILL = s.ILL ∧
    (accepts t c = true → s.RND = 32#6 ∧ t.A = s.B ∧ t.B = s.A ∧ t.RND = 0#6 ∧ t.DONE = true))

/-- R13: `K[i]` is written by an accepted LDK with `idx == i`, never while `BUSY == 1`, and by reset, and by nothing
else. Only ROUND reads it: two states that differ only in the key file have next states that differ only there, unless
the step is ROUND, and no step's response depends on it. -/
def Obligations.KeyFileAccess : Prop :=
  (∀ (s t : State) (j : BitVec 3), step s = .next t → readKey t.K j ≠ readKey s.K j →
    (∃ w sch, s.schedule = .reset w :: sch ∧ readKey t.K j = 0#32) ∨
    (s.BUSY = false ∧ ∃ c idx w, wordTaken s t c ∧ decode c = .command (.ldk idx w) ∧
      idx.toNat = j.toNat ∧ readKey t.K j = w)) ∧
  (∀ (s t t' : State) (K' : Vector Word 8), step s = .next t → step { s with K := K' } = .next t' →
    t'.responses = t.responses ∧
    (t' = { t with K := t'.K } ∨
      (s.BUSY = true ∧ t.RND.toNat = s.RND.toNat + 1 ∧ t.port = s.port ∧ t' = { t with K := K', B := t'.B })))

/-- R18, R115: `ILL` is set by an accepted illegal word and by nothing else, and cleared by reset and by nothing else. -/
def Obligations.IllIsStickyUntilReset : Prop :=
  ∀ s t : State, step s = .next t →
    (noResetNow s → (t.ILL = true ↔ s.ILL = true ∨ ∃ c why, wordTaken s t c ∧ decode c = .illegal why)) ∧
    (¬ noResetNow s → t.ILL = false)

/-- R16, R14: `BUSY` is set by ENC and DEC and cleared by FINAL and reset; `MODE` is written by ENC (to Encrypt), DEC
(to Decrypt) and reset, and by nothing else. -/
def Obligations.BusyAndModeWriters : Prop :=
  ∀ s t : State, step s = .next t →
    (s.BUSY = false → t.BUSY = true → ∃ c m, wordTaken s t c ∧ decode c = .command (startCommand m) ∧ t.MODE = m) ∧
    (s.BUSY = true → t.BUSY = false → (∃ w sch, s.schedule = .reset w :: sch) ∨ (s.RND = 32#6 ∧ t.DONE = true)) ∧
    (t.MODE ≠ s.MODE → (∃ w sch, s.schedule = .reset w :: sch ∧ t.MODE = .encrypt) ∨
      ∃ c m, wordTaken s t c ∧ decode c = .command (startCommand m) ∧ t.MODE = m)

/-- R17, R136: `DONE` is set by FINAL and by nothing else; while it is 1, a step that is no reset and takes no LDL,
LDH, ENC or DEC leaves it 1 and leaves the result in `A` and `B`; reset and those four clear it. -/
def Obligations.DoneSpansTheResult : Prop :=
  ∀ s t : State, s.Inv → step s = .next t →
    (s.DONE = false → t.DONE = true → s.BUSY = true ∧ s.RND = 32#6 ∧ t.A = s.B ∧ t.B = s.A) ∧
    (noResetNow s → s.BUSY = true → t.BUSY = false → t.DONE = true) ∧
    (s.DONE = true → noResetNow s →
      (∀ c, wordTaken s t c → ∀ w m, decode c ≠ .command (.ldl w) ∧ decode c ≠ .command (.ldh w) ∧
        decode c ≠ .command (startCommand m)) →
      t.DONE = true ∧ t.A = s.A ∧ t.B = s.B) ∧
    (¬ noResetNow s → t.DONE = false) ∧
    (noResetNow s → (∃ c, wordTaken s t c ∧ ((∃ w, decode c = .command (.ldl w)) ∨ (∃ w, decode c = .command (.ldh w)) ∨
      ∃ m, decode c = .command (startCommand m))) → t.DONE = false)

/-- R39: a step appends to the response stream exactly the answer of the command it takes, one word for RDL, RDH and
RDS and none for any other; every other step appends nothing. -/
def Obligations.ResponsesComeFromReads : Prop :=
  ∀ s t : State, step s = .next t →
    (∀ c i, wordTaken s t c → decode c = .command i → noResetNow s →
      t.responses = s.responses ++ answerOf s i) ∧
    (t.responses ≠ s.responses → ∃ c i, wordTaken s t c ∧ decode c = .command i ∧
      (i = .rdl ∨ i = .rdh ∨ i = .rds) ∧ t.responses = s.responses ++ answerOf s i)

/-! ## Invariant, progress, reset -/

/-- R23 and R22: the invariant holds right after reset. -/
def Obligations.InvAtReset : Prop := State.Inv State.reset

/-- R23: every step keeps the invariant, from every state that has it. -/
def Obligations.StepKeepsInv : Prop :=
  ∀ s t : State, s.Inv → step s = .next t → t.Inv

/-- R83, R114, R138: in a state of the invariant the sequencer has a step exactly when `BUSY == 1`, and the machine has
one always: the core never stops. -/
def Obligations.CoreNeverStops : Prop :=
  ∀ s : State, s.Inv → sequencerEnabled s = s.BUSY ∧ ∃ t, step s = .next t

/-- 93_implementation_defined.md V5: busy, with `RND` above 32 and no acceptable word, the model is stuck, by name. -/
def Obligations.StuckOnlyAboveThirtyTwo : Prop :=
  ∀ s : State, noResetNow s →
    (step s = .fault .sequencerStuck ↔ s.BUSY = true ∧ 32 < s.RND.toNat ∧
      ∀ c rest, s.port = c :: rest → accepts s c = false)

/-- R22: every register and flag is zero right after reset, and the response stream is empty. -/
def Obligations.ResetLeavesZero : Prop :=
  (∀ j : BitVec 3, readKey State.reset.K j = 0#32) ∧ State.reset.A = 0#32 ∧ State.reset.B = 0#32 ∧
  State.reset.MODE = .encrypt ∧ State.reset.RND = 0#6 ∧ State.reset.BUSY = false ∧ State.reset.DONE = false ∧
  State.reset.ILL = false ∧ statusWord State.reset = 0#32 ∧ State.reset.responses = []

/-- R130, R132: `rst` may happen in any state, also in mid-transform, and wins over any step: every register and flag
is zero after it, no response is produced and none already delivered is lost, and a presented word is not consumed
unless the host withdraws it. That a reset happens is said by the schedule's head (assumption log 8). -/
def Obligations.ResetActionInAnyState : Prop :=
  ∀ (s : State) (withdraw : Bool) (sch : List Turn), s.schedule = .reset withdraw :: sch →
    ∃ t, step s = .next t ∧
      (∀ j : BitVec 3, readKey t.K j = 0#32) ∧ t.A = 0#32 ∧ t.B = 0#32 ∧ t.MODE = .encrypt ∧ t.RND = 0#6 ∧
      t.BUSY = false ∧ t.DONE = false ∧ t.ILL = false ∧ t.responses = s.responses ∧
      (t.port = if withdraw then s.port.tail else s.port) ∧ (∀ c, accepts t c = true) ∧ sequencerEnabled t = false ∧
      exec .rdl t = .next { t with responses := s.responses ++ [0#32] } ∧
      exec .rdh t = .next { t with responses := s.responses ++ [0#32] }

/-- R121, R139: a quiescent core with nothing presented waits, and all its state survives (assumption log 7). -/
def Obligations.QuiescentCoreWaits : Prop :=
  ∀ s : State, s.BUSY = false → s.port = [] → noResetNow s → step s = .next { s with schedule := s.schedule.tail }

/-- R138: with no reset, every word presented is accepted and every transform ends, within 34 steps a word and 33 for
the transform already running. -/
def Obligations.EveryWordIsAccepted : Prop :=
  ∀ s : State, s.Inv → s.NoResetAhead →
    ∃ n t, n ≤ 33 + 34 * s.port.length ∧ run n s = .next t ∧ t.Finished

/-! ## The datapath -/

/-- R71: the exact sum, then the remainder modulo `0xFFFFFFFF`; the end-around-carry gate form computes the same. -/
def Obligations.AdderIsEndAroundCarry : Prop :=
  ∀ h k : Word, (modadd h k).toNat = (h.toNat + k.toNat) % 0xFFFFFFFF ∧ modadd h k = modaddGates h k

/-- R78: the adder's derived laws (a) to (e). -/
def Obligations.AdderLaws : Prop :=
  (∀ h k : Word, modadd h k = modadd k h) ∧
  (∀ h : Word, modadd h 0xFFFFFFFF#32 = modadd h 0#32) ∧
  (∀ (sb : SBox) (K K' : Vector Word 8),
    (∀ j : BitVec 3, readKey K j = readKey K' j ∨
      (readKey K j = 0#32 ∧ readKey K' j = 0xFFFFFFFF#32) ∨ (readKey K j = 0xFFFFFFFF#32 ∧ readKey K' j = 0#32)) →
    ∀ (x : Block) (m : Mode), transformBlock sb x K m = transformBlock sb x K' m) ∧
  (∀ k : Word, modadd 0xFFFFFFFF#32 k = modadd 0#32 k) ∧
  (∀ (sb : SBox) (k : Word), roundMix sb 0xFFFFFFFF#32 k = roundMix sb 0#32 k) ∧
  (∀ h k : Word, modadd h k ≠ 0xFFFFFFFF#32) ∧
  (∀ (sb : SBox) (h k : Word), sb.IsPermutation → roundMix sb h k ≠ rotl11 (subst32 sb 0xFFFFFFFF#32)) ∧
  (∀ h k : Word, h.toNat + k.toNat < 0xFFFFFFFF → (modadd h k).toNat = h.toNat + k.toNat)

/-- R72, R73, R74: nibble `i` is the field of bits 4i to 4i+3, goes through table `i` and comes out as nibble `i`, for
any tables; the result is the sum of the lanes; with permutations the whole is a permutation of the 32-bit values. -/
def Obligations.SubstitutionIsNibbleParallel : Prop :=
  (∀ (v : Word) (i : Fin 8), (nib v i).toNat = v.toNat / 2 ^ (4 * i.val) % 16) ∧
  (∀ (sb : SBox) (v : Word) (i : Fin 8), nib (subst32 sb v) i = sb i (nib v i)) ∧
  (∀ (sb : SBox) (v : Word), (subst32 sb v).toNat = ∑ i : Fin 8, (sb i (nib v i)).toNat * 2 ^ (4 * i.val)) ∧
  (∀ sb : SBox, sb.IsPermutation → Function.Bijective (subst32 sb))

/-- R75: bit `n` of the operand goes to bit `(n + 11) mod 32`; the two formulas of the rule say the same. -/
def Obligations.RotatorMovesEveryBit : Prop :=
  (∀ (v : Word) (n : Nat), n < 32 → (rotl11 v).getLsbD ((n + 11) % 32) = v.getLsbD n) ∧
  (∀ v : Word, (rotl11 v).toNat = (v.toNat * 2 ^ 11 % 2 ^ 32 ||| v.toNat / 2 ^ 21)) ∧
  (∀ v : Word, rotl11 v = (v.extractLsb' 0 21 ++ v.extractLsb' 21 11 : BitVec 32))

/-- R76: add, then substitute, then rotate; the result depends on the operands only through their sum, so the four
pairs of corner case (a) agree; with the identity tables it is the rotated sum. -/
def Obligations.RoundMixComposesTheStages : Prop :=
  (∀ (sb : SBox) (h k : Word), roundMix sb h k = rotl11 (subst32 sb (modadd h k))) ∧
  (∀ (sb : SBox) (h k h' k' : Word), modadd h k = modadd h' k' → roundMix sb h k = roundMix sb h' k') ∧
  (∀ (sb : SBox) (h k : Word), (h = 0#32 ∨ h = 0xFFFFFFFF#32) → (k = 0#32 ∨ k = 0xFFFFFFFF#32) →
    roundMix sb h k = rotl11 (subst32 sb 0#32)) ∧
  (∀ h k : Word, roundMix (fun _ n => n) h k = rotl11 (modadd h k))

/-- R66: `kidx` by its two cases, and its bit form. -/
def Obligations.KeyIndexCases : Prop :=
  (∀ j : BitVec 5, j.toNat ≤ 23 → (kidx j).toNat = j.toNat % 8) ∧
  (∀ j : BitVec 5, 24 ≤ j.toNat → (kidx j).toNat = 7 - j.toNat % 8) ∧
  (∀ j : BitVec 5, kidx j = j.extractLsb' 0 3 ^^^
    (if j.getLsbD 4 && j.getLsbD 3 then 7#3 else 0#3))

/-- R68: the shape of the subkey sequence, for every key. -/
def Obligations.SubkeySequenceShape : Prop :=
  ∀ K : Vector Word 8,
    (∀ i : Nat, i < 24 → subkey K (BitVec.ofNat 5 i) = subkey K (BitVec.ofNat 5 (i % 8))) ∧
    (∀ n : Nat, n < 8 → subkey K (BitVec.ofNat 5 (24 + n)) = subkey K (BitVec.ofNat 5 (7 - n)))

/-- R67, R70: the subkey at position `j` is `K[kidx(j)]`; the 32 subkeys are `K[0..7]` three times and then `K[7..0]`;
round `i` uses position `i` when encrypting and `31 - i` when decrypting, which reads the sequence backwards. -/
def Obligations.DecryptReadsSubkeysBackwards : Prop :=
  ∀ K : Vector Word 8,
    (∀ j : BitVec 5, subkey K j = readKey K (kidx j)) ∧
    (deriveSubkeys K = (List.range 32).map fun j => subkey K (BitVec.ofNat 5 j)) ∧
    deriveSubkeys K = K.toList ++ K.toList ++ K.toList ++ K.toList.reverse ∧
    (∀ i : BitVec 5, pos .encrypt i = i ∧ (pos .decrypt i).toNat = 31 - i.toNat ∧ pos .decrypt i = ~~~ i) ∧
    ((List.range 32).map fun i => subkey K (pos .encrypt (BitVec.ofNat 5 i))) = deriveSubkeys K ∧
    ((List.range 32).map fun i => subkey K (pos .decrypt (BitVec.ofNat 5 i))) = (deriveSubkeys K).reverse

/-! ## The transform -/

/-- R80: the source's algorithm, step for step: split, for each round XOR the mixing value into `a` and swap, one final
swap, join with `b` upper; and `encrypt`, `decrypt` are its two modes. -/
def Obligations.TransformBlockIsTheSourceLoop : Prop :=
  ∀ (sb : SBox) (x : Block) (K : Vector Word 8),
    (∀ m : Mode, transformBlock sb x K m =
      let ab := (List.range 32).foldl (fun (p : Word × Word) (i : Nat) =>
        let a := p.1 ^^^ roundMix sb p.2 (subkey K (pos m (BitVec.ofNat 5 i)))
        (p.2, a)) (x.extractLsb' 0 32, x.extractLsb' 32 32)
      let ba := (ab.2, ab.1)
      (ba.2 ++ ba.1 : BitVec 64)) ∧
    encrypt sb x K = transformBlock sb x K .encrypt ∧ decrypt sb x K = transformBlock sb x K .decrypt

/-- R85: decryption undoes encryption and encryption undoes decryption, for every block, key and S-box contents,
permutations or not; and in the hardware, from a quiescent state, `ENC; DEC` with nothing between, or `DEC; ENC`,
leaves `A` and `B` as they were. -/
def Obligations.RoundTrip : Prop :=
  (∀ (sb : SBox) (x : Block) (K : Vector Word 8),
    transformBlock sb (transformBlock sb x K .encrypt) K .decrypt = x ∧
    transformBlock sb (transformBlock sb x K .decrypt) K .encrypt = x) ∧
  (∀ (s : State) (m m' : Mode), m ≠ m' → s.BUSY = false → s.NoResetAhead →
    s.port = [encode (startCommand m), encode (startCommand m')] →
    ∃ n t, run n s = .next t ∧ t.Finished ∧ t.A = s.A ∧ t.B = s.B ∧ t.K = s.K ∧ t.DONE = true ∧ t.MODE = m')

/-- 95_test_vectors.md section 6, item 1: with all key words equal the two modes are the same function. -/
def Obligations.EqualKeyWordsEqualModes : Prop :=
  ∀ (sb : SBox) (x : Block) (K : Vector Word 8), (∀ i j : BitVec 3, readKey K i = readKey K j) →
    encrypt sb x K = decrypt sb x K

/-- R83, R84: let ENC or DEC be accepted. Under every schedule with no reset, the transform it starts is exactly 33
sequencer steps with any number of accepted NOP and RDS between and no other command; until then `BUSY == 1`,
`DONE == 0` and `K` and `MODE` stand still; after it `K` is still the key, the block held is `transformBlock` of the
block held at the start, and the responses are those to the RDS accepted between, each the busy `STATUS`. -/
def Obligations.HardwareComputesTransformBlock : Prop :=
  ∀ (s s0 : State) (m : Mode), s.BUSY = false → s.NoResetAhead → exec (startCommand m) s = .next s0 →
    ∃ (taken : List CmdWord) (t : State),
      s.port = taken ++ t.port ∧ (∀ c ∈ taken, c = nopWord ∨ c = rdsWord) ∧
      run (33 + taken.length) s0 = .next t ∧
      (∀ k, k < 33 + taken.length → ∃ u, run k s0 = .next u ∧ u.BUSY = true ∧ u.DONE = false ∧ u.K = s.K ∧
        u.MODE = m) ∧
      t.BUSY = false ∧ t.DONE = true ∧ t.RND = 0#6 ∧ t.MODE = m ∧ t.ILL = s.ILL ∧ t.K = s.K ∧
      heldBlock t = transformBlock Config.SBOX (heldBlock s) s.K m ∧
      t.responses = s.responses ++ List.replicate (taken.count rdsWord) (statusWord s0)

/-- R34, with R55's `LOADKEY`: the four components go low half first into the eight key registers, and nothing else
changes. -/
def Obligations.LoadKeyLaysOutComponents : Prop :=
  ∀ (s : State) (c0 c1 c2 c3 : Block) (rest : List CmdWord), s.BUSY = false → s.NoResetAhead →
    s.port = programWords (loadKeyProgram c0 c1 c2 c3) ++ rest →
    run 8 s = .next { s with
      K := #v[lo32 c0, hi32 c0, lo32 c1, hi32 c1, lo32 c2, hi32 c2, lo32 c3, hi32 c3],
      port := rest, schedule := s.schedule.drop 8 }

/-- R103: from any quiescent state the command lists of the source's `encrypt` and `decrypt` answer the two halves of
the transformed block, lower half first; the loading of the key may be left out when `K` holds it. -/
def Obligations.ProgramAnswersTheTransform : Prop :=
  ∀ (s : State) (m : Mode) (x : Block), s.BUSY = false → s.NoResetAhead →
    (∀ c0 c1 c2 c3 : Block, s.port = programWords (transformProgram m c0 c1 c2 c3 x) →
      ∃ n t, run n s = .next t ∧ t.Finished ∧
        (let r := transformBlock Config.SBOX x
          #v[lo32 c0, hi32 c0, lo32 c1, hi32 c1, lo32 c2, hi32 c2, lo32 c3, hi32 c3] m
         t.responses = s.responses ++ [lo32 r, hi32 r])) ∧
    (s.port = programWords (match m with
        | .encrypt => encryptProgram x
        | .decrypt => decryptProgram x) →
      ∃ n t, run n s = .next t ∧ t.Finished ∧
        (let r := transformBlock Config.SBOX x s.K m
         t.responses = s.responses ++ [lo32 r, hi32 r]))

/-- R33, R35: a block is its eight bytes, the first least significant, and its halves are the first and the last four;
missing bytes are zero. -/
def Obligations.BlockIsItsBytesLittleEndian : Prop :=
  (∀ y0 y1 y2 y3 y4 y5 y6 y7 : Byte,
    (packBlock [y0, y1, y2, y3, y4, y5, y6, y7]).toNat = y0.toNat + y1.toNat * 2 ^ 8 + y2.toNat * 2 ^ 16
      + y3.toNat * 2 ^ 24 + y4.toNat * 2 ^ 32 + y5.toNat * 2 ^ 40 + y6.toNat * 2 ^ 48 + y7.toNat * 2 ^ 56 ∧
    lo32 (packBlock [y0, y1, y2, y3, y4, y5, y6, y7]) = (y3 ++ y2 ++ y1 ++ y0 : BitVec 32) ∧
    hi32 (packBlock [y0, y1, y2, y3, y4, y5, y6, y7]) = (y7 ++ y6 ++ y5 ++ y4 : BitVec 32)) ∧
  (∀ (ys : List Byte) (n : Nat), packBlock (ys ++ List.replicate n 0#8) = packBlock ys)

/-- R86 and the end of 93_implementation_defined.md section 2: two runs of the same words from the same registers,
under any two schedules with no reset, end in the same registers and flags; their responses agree in every bit but
`BUSY` and `DONE` of the responses to RDS. -/
def Obligations.ScheduleShowsOnlyInStatusPolls : Prop :=
  ∀ (s t t' : State) (sch' : List Turn) (ch' n n' : Nat), s.Inv → s.NoResetAhead →
    State.NoResetAhead { s with schedule := sch', choices := ch' } →
    run n s = .next t → run n' { s with schedule := sch', choices := ch' } = .next t' → t.Finished → t'.Finished →
    t'.K = t.K ∧ t'.A = t.A ∧ t'.B = t.B ∧ t'.MODE = t.MODE ∧ t'.RND = t.RND ∧ t'.DONE = t.DONE ∧ t'.ILL = t.ILL ∧
    ∃ r r', t.responses = s.responses ++ r ∧ t'.responses = s.responses ++ r' ∧
      r.length = (s.port.filterMap scheduleFreeBits).length ∧ r'.length = r.length ∧
      List.zipWith (· &&& ·) (s.port.filterMap scheduleFreeBits) r =
        List.zipWith (· &&& ·) (s.port.filterMap scheduleFreeBits) r'
end

