-- ==== Sys2Proof/Laws/Datapath.lean ====
section
/-! SUPPORT. One spec lemma for each stage of the round function (42_round_function.md). -/
namespace Sys2Proof.Machine

/-- R71, on the numbers. -/
theorem modadd_toNat (h k : Word) : (modadd h k).toNat = (h.toNat + k.toNat) % 0xFFFFFFFF := by
  rw [modadd, BitVec.toNat_ofNat, Nat.mod_eq_of_lt]
  have := Nat.mod_lt (h.toNat + k.toNat) (show 0 < 0xFFFFFFFF by decide)
  omega

/-- The nibble as a number (R72). -/
theorem nib_toNat (v : Word) (i : Fin 8) : (nib v i).toNat = v.toNat / 2 ^ (4 * i.val) % 16 := by
  rw [nib, BitVec.extractLsb'_toNat, Nat.shiftRight_eq_div_pow]

/-- A word is the sum of its nibbles in their positions. -/
theorem toNat_eq_nibbles (v : Word) :
    v.toNat = (nib v 0).toNat + 16 * (nib v 1).toNat + 256 * (nib v 2).toNat + 4096 * (nib v 3).toNat
      + 65536 * (nib v 4).toNat + 1048576 * (nib v 5).toNat + 16777216 * (nib v 6).toNat
      + 268435456 * (nib v 7).toNat := by
  have := v.isLt
  simp only [nib_toNat]
  norm_num
  omega

/-- Two words with the same nibbles are the same word. -/
theorem word_eq_of_nibbles {v w : Word} (h : ∀ i, nib v i = nib w i) : v = w := by
  apply BitVec.eq_of_toNat_eq
  rw [toNat_eq_nibbles v, toNat_eq_nibbles w]
  simp only [h]

/-- A lane as a number: its substituted nibble in its position (R73). -/
theorem substLane_toNat (sb : SBox) (v : Word) (i : Fin 8) :
    (substLane sb v i).toNat = (sb i (nib v i)).toNat * 2 ^ (4 * i.val) := by
  have hs := (sb i (nib v i)).isLt
  have hp : (2 : Nat) ^ (4 * i.val) ≤ 2 ^ 28 := Nat.pow_le_pow_right (by decide) (by omega)
  rw [substLane, substitute, BitVec.toNat_shiftLeft, Nat.shiftLeft_eq, BitVec.toNat_setWidth,
    Nat.mod_eq_of_lt (a := (sb i (nib v i)).toNat) (by omega), Nat.mod_eq_of_lt]
  calc (sb i (nib v i)).toNat * 2 ^ (4 * i.val) ≤ 15 * 2 ^ 28 := Nat.mul_le_mul (by omega) hp
    _ < 2 ^ 32 := by decide

/-- `subst32` as a number: R74's sum, in which no lane carries into another. -/
theorem subst32_toNat (sb : SBox) (v : Word) :
    (subst32 sb v).toNat = (sb 0 (nib v 0)).toNat + 16 * (sb 1 (nib v 1)).toNat + 256 * (sb 2 (nib v 2)).toNat
      + 4096 * (sb 3 (nib v 3)).toNat + 65536 * (sb 4 (nib v 4)).toNat + 1048576 * (sb 5 (nib v 5)).toNat
      + 16777216 * (sb 6 (nib v 6)).toNat + 268435456 * (sb 7 (nib v 7)).toNat := by
  have h0 := (sb 0 (nib v 0)).isLt
  have h1 := (sb 1 (nib v 1)).isLt
  have h2 := (sb 2 (nib v 2)).isLt
  have h3 := (sb 3 (nib v 3)).isLt
  have h4 := (sb 4 (nib v 4)).isLt
  have h5 := (sb 5 (nib v 5)).isLt
  have h6 := (sb 6 (nib v 6)).isLt
  have h7 := (sb 7 (nib v 7)).isLt
  simp only [subst32, BitVec.toNat_add, substLane_toNat]
  norm_num
  omega

/-- The nibble of a word given by its nibbles. -/
theorem nib_of_toNat {w : Word} {n : Fin 8 → Nibble}
    (h : w.toNat = (n 0).toNat + 16 * (n 1).toNat + 256 * (n 2).toNat + 4096 * (n 3).toNat + 65536 * (n 4).toNat
      + 1048576 * (n 5).toNat + 16777216 * (n 6).toNat + 268435456 * (n 7).toNat) (i : Fin 8) : nib w i = n i := by
  have h0 := (n 0).isLt
  have h1 := (n 1).isLt
  have h2 := (n 2).isLt
  have h3 := (n 3).isLt
  have h4 := (n 4).isLt
  have h5 := (n 5).isLt
  have h6 := (n 6).isLt
  have h7 := (n 7).isLt
  have hi : i = 0 ∨ i = 1 ∨ i = 2 ∨ i = 3 ∨ i = 4 ∨ i = 5 ∨ i = 6 ∨ i = 7 := by omega
  apply BitVec.eq_of_toNat_eq
  rw [nib_toNat, h]
  rcases hi with rfl | rfl | rfl | rfl | rfl | rfl | rfl | rfl <;> norm_num <;> omega

/-- Bit `n` of the operand goes to bit `(n + 11) mod 32` (R75), read at the result. -/
theorem rotl11_getLsbD (v : Word) (n : Nat) (hn : n < 32) :
    (rotl11 v).getLsbD n = if n < 11 then v.getLsbD (n + 21) else v.getLsbD (n - 11) := by
  rw [rotl11, BitVec.getLsbD_or, BitVec.getLsbD_shiftLeft, BitVec.getLsbD_ushiftRight]
  by_cases h : n < 11
  · simp [h, hn, Nat.add_comm]
  · have : v.getLsbD (21 + n) = false := BitVec.getLsbD_of_ge v _ (by omega)
    simp [h, hn, this]

/-- The rotator is a permutation of the bits, so it loses nothing. -/
theorem rotl11_injective : Function.Injective rotl11 := by
  intro v w h
  apply BitVec.eq_of_getLsbD_eq
  intro n hn
  by_cases h1 : n < 21
  · have := congrArg (fun x : Word => x.getLsbD (n + 11)) h
    simpa [rotl11_getLsbD _ (n + 11) (by omega)] using this
  · have := congrArg (fun x : Word => x.getLsbD (n - 21)) h
    simpa [rotl11_getLsbD _ (n - 21) (by omega), show n - 21 < 11 by omega, show n - 21 + 21 = n by omega] using this

/-- `roundMix` depends on its operands only through their sum in the adder (R76 (a)). -/
theorem roundMix_congr (sb : SBox) {h k h' k' : Word} (e : modadd h k = modadd h' k') :
    roundMix sb h k = roundMix sb h' k' := by
  rw [roundMix, roundMix, e]

theorem modadd_comm (h k : Word) : modadd h k = modadd k h := by
  apply BitVec.eq_of_toNat_eq
  rw [modadd_toNat, modadd_toNat, Nat.add_comm]

/-- A permutation loses nothing (R61). -/
theorem sbox_injective {sb : SBox} (h : sb.IsPermutation) (t : Fin 8) : Function.Injective (sb t) := by
  intro a b e
  obtain ⟨n, _, hn⟩ := h t (sb t a)
  rw [hn a rfl, hn b e.symm]

end Sys2Proof.Machine
end

