-- ==== Sys2Proof/Laws/Decode.lean ====
section
/-! SUPPORT. Format C, the rows of the opcode map read through the fields, and the decoder's cases. -/
namespace Sys2Proof

/-- Every bit of an assembled word (R45). -/
theorem assemble_getLsbD (op idx : Nibble) (imm : Word) (n : Nat) :
    (assemble op idx imm).getLsbD n =
      if n < 32 then imm.getLsbD n else if n < 36 then idx.getLsbD (n - 32) else op.getLsbD (n - 36) := by
  change ((op ++ idx ++ imm : BitVec (4 + 4 + 32))).getLsbD n = _
  rw [BitVec.getLsbD_append, BitVec.getLsbD_append]
  by_cases h1 : n < 32
  · simp [h1]
  · by_cases h2 : n < 36
    · simp [h1, h2, show n - 32 < 4 by omega]
    · simp [h1, h2, show ¬ (n - 32 < 4) by omega, show n - 32 - 4 = n - 36 by omega]

/-- A word is its three fields (R45). -/
theorem assemble_fields (c : CmdWord) : assemble (opField c) (idxField c) (immField c) = c := by
  apply BitVec.eq_of_getLsbD_eq
  intro n hn
  rw [assemble_getLsbD]
  by_cases h1 : n < 32
  · simp [immField, h1]
  · by_cases h2 : n < 36
    · simp [idxField, h1, h2, show n - 32 < 4 by omega, show 32 + (n - 32) = n by omega]
    · simp [opField, h1, h2, show n - 36 < 4 by omega, show 36 + (n - 36) = n by omega]

@[simp] theorem opField_assemble (op idx : Nibble) (imm : Word) : opField (assemble op idx imm) = op := by
  apply BitVec.eq_of_getLsbD_eq
  intro n hn
  rw [opField, BitVec.getLsbD_extractLsb', assemble_getLsbD]
  simp [hn, show ¬ (36 + n < 32) by omega]

@[simp] theorem idxField_assemble (op idx : Nibble) (imm : Word) : idxField (assemble op idx imm) = idx := by
  apply BitVec.eq_of_getLsbD_eq
  intro n hn
  rw [idxField, BitVec.getLsbD_extractLsb', assemble_getLsbD]
  simp [hn, show 32 + n < 36 by omega]

@[simp] theorem immField_assemble (op idx : Nibble) (imm : Word) : immField (assemble op idx imm) = imm := by
  apply BitVec.eq_of_getLsbD_eq
  intro n hn
  rw [immField, BitVec.getLsbD_extractLsb', assemble_getLsbD]
  simp [hn]

/-- Two assembled words are equal exactly when their fields are. -/
theorem assemble_inj {op op' idx idx' : Nibble} {imm imm' : Word} :
    assemble op idx imm = assemble op' idx' imm' ↔ op = op' ∧ idx = idx' ∧ imm = imm' := by
  constructor
  · intro h
    exact ⟨by simpa using congrArg opField h, by simpa using congrArg idxField h,
      by simpa using congrArg immField h⟩
  · rintro ⟨rfl, rfl, rfl⟩; rfl

/-- Masking works field by field. -/
theorem assemble_and (op op' idx idx' : Nibble) (imm imm' : Word) :
    assemble op idx imm &&& assemble op' idx' imm' = assemble (op &&& op') (idx &&& idx') (imm &&& imm') := by
  apply BitVec.eq_of_getLsbD_eq
  intro n _
  simp only [BitVec.getLsbD_and, assemble_getLsbD]
  split
  · rfl
  · split <;> rfl

/-- A row whose pattern and mask are given by fields is hit exactly when each masked field is the pattern's. -/
theorem hit_iff_fields {r : Row} {po mo pi mi : Nibble} {pm mm : Word} (hp : r.pattern = assemble po pi pm)
    (hm : r.mask = assemble mo mi mm) (c : CmdWord) :
    r.hit c = true ↔ opField c &&& mo = po ∧ idxField c &&& mi = pi ∧ immField c &&& mm = pm := by
  rw [Row.hit, hp, hm, beq_iff_eq]
  conv_lhs => rw [← assemble_fields c]
  rw [assemble_and, assemble_inj]

theorem and_allOnes_nibble (x : Nibble) : x &&& 0xF#4 = x := by
  revert x; decide

theorem and_allOnes_word (x : Word) : x &&& 0xFFFFFFFF#32 = x := by
  have h : (0xFFFFFFFF#32) = BitVec.allOnes 32 := by decide
  rw [h, BitVec.and_allOnes]

theorem idx_below_eight (x : Nibble) : x &&& 0x8#4 = 0#4 ↔ x.toNat < 8 := by
  revert x; decide

/-- The rows that fix every bit (R49). -/
theorem fixedRow_hit {r : Row} {po : Nibble} (hp : r.pattern = assemble po 0#4 0#32)
    (hm : r.mask = assemble 0xF#4 0xF#4 0xFFFFFFFF#32) (c : CmdWord) :
    r.hit c = true ↔ opField c = po ∧ idxField c = 0#4 ∧ immField c = 0#32 := by
  rw [hit_iff_fields hp hm, and_allOnes_nibble, and_allOnes_nibble, and_allOnes_word]

/-- The rows that leave the operand free (R49: LDL, LDH). -/
theorem loadRow_hit {r : Row} {po : Nibble} (hp : r.pattern = assemble po 0#4 0#32)
    (hm : r.mask = assemble 0xF#4 0xF#4 0#32) (c : CmdWord) :
    r.hit c = true ↔ opField c = po ∧ idxField c = 0#4 := by
  rw [hit_iff_fields hp hm, and_allOnes_nibble, and_allOnes_nibble]; simp

theorem rowNop_hit (c : CmdWord) : rowNop.hit c = true ↔ opField c = 0x0#4 ∧ idxField c = 0#4 ∧ immField c = 0#32 :=
  fixedRow_hit (by decide) (by decide) c

/-- R49, row LDK: `c[35] == 0` is `idx < 8`. -/
theorem rowLdk_hit (c : CmdWord) : rowLdk.hit c = true ↔ opField c = 0x1#4 ∧ (idxField c).toNat < 8 := by
  rw [hit_iff_fields (r := rowLdk) (po := 0x1#4) (mo := 0xF#4) (pi := 0#4) (mi := 0x8#4) (pm := 0#32) (mm := 0#32)
    (by decide) (by decide), and_allOnes_nibble, idx_below_eight]
  simp

theorem rowLdl_hit (c : CmdWord) : rowLdl.hit c = true ↔ opField c = 0x2#4 ∧ idxField c = 0#4 :=
  loadRow_hit (by decide) (by decide) c

theorem rowLdh_hit (c : CmdWord) : rowLdh.hit c = true ↔ opField c = 0x3#4 ∧ idxField c = 0#4 :=
  loadRow_hit (by decide) (by decide) c

theorem rowEnc_hit (c : CmdWord) : rowEnc.hit c = true ↔ opField c = 0x4#4 ∧ idxField c = 0#4 ∧ immField c = 0#32 :=
  fixedRow_hit (by decide) (by decide) c

theorem rowDec_hit (c : CmdWord) : rowDec.hit c = true ↔ opField c = 0x5#4 ∧ idxField c = 0#4 ∧ immField c = 0#32 :=
  fixedRow_hit (by decide) (by decide) c

theorem rowRdl_hit (c : CmdWord) : rowRdl.hit c = true ↔ opField c = 0x6#4 ∧ idxField c = 0#4 ∧ immField c = 0#32 :=
  fixedRow_hit (by decide) (by decide) c

theorem rowRdh_hit (c : CmdWord) : rowRdh.hit c = true ↔ opField c = 0x7#4 ∧ idxField c = 0#4 ∧ immField c = 0#32 :=
  fixedRow_hit (by decide) (by decide) c

theorem rowRds_hit (c : CmdWord) : rowRds.hit c = true ↔ opField c = 0x8#4 ∧ idxField c = 0#4 ∧ immField c = 0#32 :=
  fixedRow_hit (by decide) (by decide) c

/-- What a decoded command says of its word: the row it hit, and operands that are the word's fields. -/
theorem decode_command_cases {c : CmdWord} {i : Instr} (h : decode c = .command i) :
    (rowOf i).hit c = true ∧
      match i with
      | .ldk idx imm => idx = idxField c ∧ imm = immField c
      | .ldl imm => imm = immField c
      | .ldh imm => imm = immField c
      | .nop => True
      | .enc => True
      | .dec => True
      | .rdl => True
      | .rdh => True
      | .rds => True := by
  unfold decode at h
  repeat' split at h
  all_goals first
    | (injection h with h; subst h; simp_all [rowOf])
    | cases h

/-- A word decodes to no command exactly when it hits no row; it is then rejected under its class's name. -/
theorem decode_illegal_iff {c : CmdWord} {why : IllegalClass} :
    decode c = .illegal why ↔ (∀ r ∈ opcodeMap, r.hit c = false) ∧ illegalClass c = why := by
  unfold decode opcodeMap
  repeat' split
  all_goals simp_all

/-- A command with no operand: every other bit zero, or R51 (d). -/
def decodeFixed (i : Instr) (idx : Nibble) (imm : Word) : Decoded :=
  if idx = 0#4 ∧ imm = 0#32 then .command i else .illegal .fixedFieldNotZero

/-- The decoder read opcode by opcode, from the fields of format C. -/
def decodeFields (op idx : Nibble) (imm : Word) : Decoded :=
  if op = 0x0#4 then decodeFixed .nop idx imm
  else if op = 0x1#4 then
    if idx.toNat < 8 then .command (.ldk idx imm) else .illegal .keyIndexOutOfRange
  else if op = 0x2#4 then
    if idx = 0#4 then .command (.ldl imm) else .illegal .loadIndexNotZero
  else if op = 0x3#4 then
    if idx = 0#4 then .command (.ldh imm) else .illegal .loadIndexNotZero
  else if op = 0x4#4 then decodeFixed .enc idx imm
  else if op = 0x5#4 then decodeFixed .dec idx imm
  else if op = 0x6#4 then decodeFixed .rdl idx imm
  else if op = 0x7#4 then decodeFixed .rdh idx imm
  else if op = 0x8#4 then decodeFixed .rds idx imm
  else .illegal .reservedOp

/-- The decoder by rows and the decoder by fields are one function. -/
theorem decode_eq_decodeFields (c : CmdWord) : decode c = decodeFields (opField c) (idxField c) (immField c) := by
  simp only [decode, rowNop_hit, rowLdk_hit, rowLdl_hit, rowLdh_hit, rowEnc_hit, rowDec_hit, rowRdl_hit, rowRdh_hit,
    rowRds_hit, illegalClass]
  generalize opField c = op
  generalize idxField c = idx
  generalize immField c = imm
  have hop : op = 0x0#4 ∨ op = 0x1#4 ∨ op = 0x2#4 ∨ op = 0x3#4 ∨ op = 0x4#4 ∨ op = 0x5#4 ∨ op = 0x6#4 ∨
      op = 0x7#4 ∨ op = 0x8#4 ∨ 9 ≤ op.toNat := by
    revert op; decide
  rcases hop with rfl | rfl | rfl | rfl | rfl | rfl | rfl | rfl | rfl | h
  · simp [decodeFields, decodeFixed]
  · simp [decodeFields]
  · simp [decodeFields]
  · simp [decodeFields]
  · simp [decodeFields, decodeFixed]
  · simp [decodeFields, decodeFixed]
  · simp [decodeFields, decodeFixed]
  · simp [decodeFields, decodeFixed]
  · simp [decodeFields, decodeFixed]
  · have ne : ∀ k : Nibble, k.toNat < 9 → op ≠ k := by
      rintro k hk rfl; omega
    simp [decodeFields, h, ne 0x0#4 (by decide), ne 0x1#4 (by decide), ne 0x2#4 (by decide), ne 0x3#4 (by decide),
      ne 0x4#4 (by decide), ne 0x5#4 (by decide), ne 0x6#4 (by decide), ne 0x7#4 (by decide), ne 0x8#4 (by decide)]

end Sys2Proof
end

