-- ==== Sys2Proof/Laws/State.lean ====
section
/-! SUPPORT. One lemma per field per update of the state, so that no proof unfolds an update. -/
namespace Sys2Proof.Machine

@[simp] theorem writeKey_K (i : BitVec 3) (w : Word) (s : State) : (writeKey i w s).K = s.K.set i.toNat w i.isLt := rfl
@[simp] theorem writeKey_A (i : BitVec 3) (w : Word) (s : State) : (writeKey i w s).A = s.A := rfl
@[simp] theorem writeKey_B (i : BitVec 3) (w : Word) (s : State) : (writeKey i w s).B = s.B := rfl
@[simp] theorem writeKey_MODE (i : BitVec 3) (w : Word) (s : State) : (writeKey i w s).MODE = s.MODE := rfl
@[simp] theorem writeKey_RND (i : BitVec 3) (w : Word) (s : State) : (writeKey i w s).RND = s.RND := rfl
@[simp] theorem writeKey_BUSY (i : BitVec 3) (w : Word) (s : State) : (writeKey i w s).BUSY = s.BUSY := rfl
@[simp] theorem writeKey_DONE (i : BitVec 3) (w : Word) (s : State) : (writeKey i w s).DONE = s.DONE := rfl
@[simp] theorem writeKey_ILL (i : BitVec 3) (w : Word) (s : State) : (writeKey i w s).ILL = s.ILL := rfl
@[simp] theorem writeKey_responses (i : BitVec 3) (w : Word) (s : State) : (writeKey i w s).responses = s.responses := rfl
@[simp] theorem writeKey_port (i : BitVec 3) (w : Word) (s : State) : (writeKey i w s).port = s.port := rfl
@[simp] theorem writeKey_schedule (i : BitVec 3) (w : Word) (s : State) : (writeKey i w s).schedule = s.schedule := rfl
@[simp] theorem writeKey_choices (i : BitVec 3) (w : Word) (s : State) : (writeKey i w s).choices = s.choices := rfl

@[simp] theorem loadLower_K (w : Word) (s : State) : (loadLower w s).K = s.K := rfl
@[simp] theorem loadLower_A (w : Word) (s : State) : (loadLower w s).A = w := rfl
@[simp] theorem loadLower_B (w : Word) (s : State) : (loadLower w s).B = s.B := rfl
@[simp] theorem loadLower_MODE (w : Word) (s : State) : (loadLower w s).MODE = s.MODE := rfl
@[simp] theorem loadLower_RND (w : Word) (s : State) : (loadLower w s).RND = s.RND := rfl
@[simp] theorem loadLower_BUSY (w : Word) (s : State) : (loadLower w s).BUSY = s.BUSY := rfl
@[simp] theorem loadLower_DONE (w : Word) (s : State) : (loadLower w s).DONE = false := rfl
@[simp] theorem loadLower_ILL (w : Word) (s : State) : (loadLower w s).ILL = s.ILL := rfl
@[simp] theorem loadLower_responses (w : Word) (s : State) : (loadLower w s).responses = s.responses := rfl
@[simp] theorem loadLower_port (w : Word) (s : State) : (loadLower w s).port = s.port := rfl
@[simp] theorem loadLower_schedule (w : Word) (s : State) : (loadLower w s).schedule = s.schedule := rfl
@[simp] theorem loadLower_choices (w : Word) (s : State) : (loadLower w s).choices = s.choices := rfl

@[simp] theorem loadUpper_K (w : Word) (s : State) : (loadUpper w s).K = s.K := rfl
@[simp] theorem loadUpper_A (w : Word) (s : State) : (loadUpper w s).A = s.A := rfl
@[simp] theorem loadUpper_B (w : Word) (s : State) : (loadUpper w s).B = w := rfl
@[simp] theorem loadUpper_MODE (w : Word) (s : State) : (loadUpper w s).MODE = s.MODE := rfl
@[simp] theorem loadUpper_RND (w : Word) (s : State) : (loadUpper w s).RND = s.RND := rfl
@[simp] theorem loadUpper_BUSY (w : Word) (s : State) : (loadUpper w s).BUSY = s.BUSY := rfl
@[simp] theorem loadUpper_DONE (w : Word) (s : State) : (loadUpper w s).DONE = false := rfl
@[simp] theorem loadUpper_ILL (w : Word) (s : State) : (loadUpper w s).ILL = s.ILL := rfl
@[simp] theorem loadUpper_responses (w : Word) (s : State) : (loadUpper w s).responses = s.responses := rfl
@[simp] theorem loadUpper_port (w : Word) (s : State) : (loadUpper w s).port = s.port := rfl
@[simp] theorem loadUpper_schedule (w : Word) (s : State) : (loadUpper w s).schedule = s.schedule := rfl
@[simp] theorem loadUpper_choices (w : Word) (s : State) : (loadUpper w s).choices = s.choices := rfl

@[simp] theorem respond_K (v : Word) (s : State) : (respond v s).K = s.K := rfl
@[simp] theorem respond_A (v : Word) (s : State) : (respond v s).A = s.A := rfl
@[simp] theorem respond_B (v : Word) (s : State) : (respond v s).B = s.B := rfl
@[simp] theorem respond_MODE (v : Word) (s : State) : (respond v s).MODE = s.MODE := rfl
@[simp] theorem respond_RND (v : Word) (s : State) : (respond v s).RND = s.RND := rfl
@[simp] theorem respond_BUSY (v : Word) (s : State) : (respond v s).BUSY = s.BUSY := rfl
@[simp] theorem respond_DONE (v : Word) (s : State) : (respond v s).DONE = s.DONE := rfl
@[simp] theorem respond_ILL (v : Word) (s : State) : (respond v s).ILL = s.ILL := rfl
@[simp] theorem respond_responses (v : Word) (s : State) : (respond v s).responses = s.responses ++ [v] := rfl
@[simp] theorem respond_port (v : Word) (s : State) : (respond v s).port = s.port := rfl
@[simp] theorem respond_schedule (v : Word) (s : State) : (respond v s).schedule = s.schedule := rfl
@[simp] theorem respond_choices (v : Word) (s : State) : (respond v s).choices = s.choices := rfl

@[simp] theorem raiseIllegalCommand_K (s : State) : (raiseIllegalCommand s).K = s.K := rfl
@[simp] theorem raiseIllegalCommand_A (s : State) : (raiseIllegalCommand s).A = s.A := rfl
@[simp] theorem raiseIllegalCommand_B (s : State) : (raiseIllegalCommand s).B = s.B := rfl
@[simp] theorem raiseIllegalCommand_MODE (s : State) : (raiseIllegalCommand s).MODE = s.MODE := rfl
@[simp] theorem raiseIllegalCommand_RND (s : State) : (raiseIllegalCommand s).RND = s.RND := rfl
@[simp] theorem raiseIllegalCommand_BUSY (s : State) : (raiseIllegalCommand s).BUSY = s.BUSY := rfl
@[simp] theorem raiseIllegalCommand_DONE (s : State) : (raiseIllegalCommand s).DONE = s.DONE := rfl
@[simp] theorem raiseIllegalCommand_ILL (s : State) : (raiseIllegalCommand s).ILL = true := rfl
@[simp] theorem raiseIllegalCommand_responses (s : State) : (raiseIllegalCommand s).responses = s.responses := rfl
@[simp] theorem raiseIllegalCommand_port (s : State) : (raiseIllegalCommand s).port = s.port := rfl
@[simp] theorem raiseIllegalCommand_schedule (s : State) : (raiseIllegalCommand s).schedule = s.schedule := rfl
@[simp] theorem raiseIllegalCommand_choices (s : State) : (raiseIllegalCommand s).choices = s.choices := rfl

@[simp] theorem armSequencer_K (m : Mode) (s : State) : (armSequencer m s).K = s.K := rfl
@[simp] theorem armSequencer_A (m : Mode) (s : State) : (armSequencer m s).A = s.A := rfl
@[simp] theorem armSequencer_B (m : Mode) (s : State) : (armSequencer m s).B = s.B := rfl
@[simp] theorem armSequencer_MODE (m : Mode) (s : State) : (armSequencer m s).MODE = m := rfl
@[simp] theorem armSequencer_RND (m : Mode) (s : State) : (armSequencer m s).RND = 0#6 := rfl
@[simp] theorem armSequencer_BUSY (m : Mode) (s : State) : (armSequencer m s).BUSY = true := rfl
@[simp] theorem armSequencer_DONE (m : Mode) (s : State) : (armSequencer m s).DONE = false := rfl
@[simp] theorem armSequencer_ILL (m : Mode) (s : State) : (armSequencer m s).ILL = s.ILL := rfl
@[simp] theorem armSequencer_responses (m : Mode) (s : State) : (armSequencer m s).responses = s.responses := rfl
@[simp] theorem armSequencer_port (m : Mode) (s : State) : (armSequencer m s).port = s.port := rfl
@[simp] theorem armSequencer_schedule (m : Mode) (s : State) : (armSequencer m s).schedule = s.schedule := rfl
@[simp] theorem armSequencer_choices (m : Mode) (s : State) : (armSequencer m s).choices = s.choices := rfl

@[simp] theorem roundStep_K (sb : SBox) (s : State) : (roundStep sb s).K = s.K := rfl
@[simp] theorem roundStep_A (sb : SBox) (s : State) : (roundStep sb s).A = s.B := rfl
@[simp] theorem roundStep_B (sb : SBox) (s : State) : (roundStep sb s).B = s.A ^^^ roundMix sb s.B (subkey s.K (pos s.MODE (s.RND.setWidth 5))) := rfl
@[simp] theorem roundStep_MODE (sb : SBox) (s : State) : (roundStep sb s).MODE = s.MODE := rfl
@[simp] theorem roundStep_RND (sb : SBox) (s : State) : (roundStep sb s).RND = s.RND + 1#6 := rfl
@[simp] theorem roundStep_BUSY (sb : SBox) (s : State) : (roundStep sb s).BUSY = s.BUSY := rfl
@[simp] theorem roundStep_DONE (sb : SBox) (s : State) : (roundStep sb s).DONE = s.DONE := rfl
@[simp] theorem roundStep_ILL (sb : SBox) (s : State) : (roundStep sb s).ILL = s.ILL := rfl
@[simp] theorem roundStep_responses (sb : SBox) (s : State) : (roundStep sb s).responses = s.responses := rfl
@[simp] theorem roundStep_port (sb : SBox) (s : State) : (roundStep sb s).port = s.port := rfl
@[simp] theorem roundStep_schedule (sb : SBox) (s : State) : (roundStep sb s).schedule = s.schedule := rfl
@[simp] theorem roundStep_choices (sb : SBox) (s : State) : (roundStep sb s).choices = s.choices := rfl

@[simp] theorem finalStep_K (s : State) : (finalStep s).K = s.K := rfl
@[simp] theorem finalStep_A (s : State) : (finalStep s).A = s.B := rfl
@[simp] theorem finalStep_B (s : State) : (finalStep s).B = s.A := rfl
@[simp] theorem finalStep_MODE (s : State) : (finalStep s).MODE = s.MODE := rfl
@[simp] theorem finalStep_RND (s : State) : (finalStep s).RND = 0#6 := rfl
@[simp] theorem finalStep_BUSY (s : State) : (finalStep s).BUSY = false := rfl
@[simp] theorem finalStep_DONE (s : State) : (finalStep s).DONE = true := rfl
@[simp] theorem finalStep_ILL (s : State) : (finalStep s).ILL = s.ILL := rfl
@[simp] theorem finalStep_responses (s : State) : (finalStep s).responses = s.responses := rfl
@[simp] theorem finalStep_port (s : State) : (finalStep s).port = s.port := rfl
@[simp] theorem finalStep_schedule (s : State) : (finalStep s).schedule = s.schedule := rfl
@[simp] theorem finalStep_choices (s : State) : (finalStep s).choices = s.choices := rfl

@[simp] theorem resetAction_K (d : Bool) (s : State) : (resetAction d s).K = State.reset.K := rfl
@[simp] theorem resetAction_A (d : Bool) (s : State) : (resetAction d s).A = 0#32 := rfl
@[simp] theorem resetAction_B (d : Bool) (s : State) : (resetAction d s).B = 0#32 := rfl
@[simp] theorem resetAction_MODE (d : Bool) (s : State) : (resetAction d s).MODE = .encrypt := rfl
@[simp] theorem resetAction_RND (d : Bool) (s : State) : (resetAction d s).RND = 0#6 := rfl
@[simp] theorem resetAction_BUSY (d : Bool) (s : State) : (resetAction d s).BUSY = false := rfl
@[simp] theorem resetAction_DONE (d : Bool) (s : State) : (resetAction d s).DONE = false := rfl
@[simp] theorem resetAction_ILL (d : Bool) (s : State) : (resetAction d s).ILL = false := rfl
@[simp] theorem resetAction_responses (d : Bool) (s : State) : (resetAction d s).responses = s.responses := rfl
@[simp] theorem resetAction_port (d : Bool) (s : State) : (resetAction d s).port = if d then s.port.tail else s.port := rfl
@[simp] theorem resetAction_schedule (d : Bool) (s : State) : (resetAction d s).schedule = s.schedule := rfl
@[simp] theorem resetAction_choices (d : Bool) (s : State) : (resetAction d s).choices = s.choices := rfl

@[simp] theorem presentWord_K (w : Nat) (s : State) : (presentWord w s).K = s.K := rfl
@[simp] theorem presentWord_A (w : Nat) (s : State) : (presentWord w s).A = s.A := rfl
@[simp] theorem presentWord_B (w : Nat) (s : State) : (presentWord w s).B = s.B := rfl
@[simp] theorem presentWord_MODE (w : Nat) (s : State) : (presentWord w s).MODE = s.MODE := rfl
@[simp] theorem presentWord_RND (w : Nat) (s : State) : (presentWord w s).RND = s.RND := rfl
@[simp] theorem presentWord_BUSY (w : Nat) (s : State) : (presentWord w s).BUSY = s.BUSY := rfl
@[simp] theorem presentWord_DONE (w : Nat) (s : State) : (presentWord w s).DONE = s.DONE := rfl
@[simp] theorem presentWord_ILL (w : Nat) (s : State) : (presentWord w s).ILL = s.ILL := rfl
@[simp] theorem presentWord_responses (w : Nat) (s : State) : (presentWord w s).responses = s.responses := rfl
@[simp] theorem presentWord_port (w : Nat) (s : State) : (presentWord w s).port = BitVec.ofNat 40 w :: s.port := rfl
@[simp] theorem presentWord_schedule (w : Nat) (s : State) : (presentWord w s).schedule = .host :: s.schedule := rfl
@[simp] theorem presentWord_choices (w : Nat) (s : State) : (presentWord w s).choices = s.choices := rfl

@[simp] theorem afterTurn_K (s : State) : (afterTurn s).K = s.K := rfl
@[simp] theorem afterTurn_A (s : State) : (afterTurn s).A = s.A := rfl
@[simp] theorem afterTurn_B (s : State) : (afterTurn s).B = s.B := rfl
@[simp] theorem afterTurn_MODE (s : State) : (afterTurn s).MODE = s.MODE := rfl
@[simp] theorem afterTurn_RND (s : State) : (afterTurn s).RND = s.RND := rfl
@[simp] theorem afterTurn_BUSY (s : State) : (afterTurn s).BUSY = s.BUSY := rfl
@[simp] theorem afterTurn_DONE (s : State) : (afterTurn s).DONE = s.DONE := rfl
@[simp] theorem afterTurn_ILL (s : State) : (afterTurn s).ILL = s.ILL := rfl
@[simp] theorem afterTurn_responses (s : State) : (afterTurn s).responses = s.responses := rfl
@[simp] theorem afterTurn_port (s : State) : (afterTurn s).port = s.port := rfl
@[simp] theorem afterTurn_schedule (s : State) : (afterTurn s).schedule = s.schedule.tail := rfl

end Sys2Proof.Machine
end

