-- ==== Sys2Proof/Laws/Exec.lean ====
section
/-! SUPPORT. What a meaning answers, and when a decoded word is accepted. -/
namespace Sys2Proof.Machine

/-- The guard on a quiescent state: the rule's effect. -/
theorem whenQuiescent_of_quiescent {act : State → State} {s : State} (h : s.BUSY = false) :
    whenQuiescent act s = .next (act s) := by
  simp [whenQuiescent, h]

/-- The guard on a busy state: held, nothing changes (R47). -/
theorem whenQuiescent_of_busy {act : State → State} {s : State} (h : s.BUSY = true) :
    whenQuiescent act s = .next s := by
  simp [whenQuiescent, h]

/-- The state a command leaves when it is not held. -/
def commandEffect (s : State) : Instr → State
  | .nop => s
  | .ldk idx imm =>
    match keyIndex idx with
    | some i => writeKey i imm s
    | none => raiseIllegalCommand s
  | .ldl imm => loadLower imm s
  | .ldh imm => loadUpper imm s
  | .enc => armSequencer .encrypt s
  | .dec => armSequencer .decrypt s
  | .rdl => respond s.A s
  | .rdh => respond s.B s
  | .rds => respond (statusWord s) s

/-- Every meaning answers a next state: the command's effect, or the same state while it is held. -/
theorem exec_eq (i : Instr) (s : State) :
    exec i s = .next (if s.BUSY && heldWhileBusy i then s else commandEffect s i) := by
  cases i with
  | nop => simp [exec, execNop, heldWhileBusy, commandEffect]
  | rds => simp [exec, execRds, heldWhileBusy, commandEffect]
  | ldk idx imm =>
    simp only [exec, execLdk, heldWhileBusy, commandEffect, Bool.and_true]
    cases hb : s.BUSY <;> cases hk : keyIndex idx <;> simp [whenQuiescent, hb]
  | ldl imm => cases hb : s.BUSY <;> simp [exec, execLdl, heldWhileBusy, commandEffect, whenQuiescent, hb]
  | ldh imm => cases hb : s.BUSY <;> simp [exec, execLdh, heldWhileBusy, commandEffect, whenQuiescent, hb]
  | enc => cases hb : s.BUSY <;> simp [exec, execEnc, heldWhileBusy, commandEffect, whenQuiescent, hb]
  | dec => cases hb : s.BUSY <;> simp [exec, execDec, heldWhileBusy, commandEffect, whenQuiescent, hb]
  | rdl => cases hb : s.BUSY <;> simp [exec, execRdl, heldWhileBusy, commandEffect, whenQuiescent, hb]
  | rdh => cases hb : s.BUSY <;> simp [exec, execRdh, heldWhileBusy, commandEffect, whenQuiescent, hb]

/-- The command's effect, on a quiescent state or for NOP and RDS on any. -/
theorem exec_of_not_held {i : Instr} {s : State} (h : s.BUSY = false ∨ heldWhileBusy i = false) :
    exec i s = .next (commandEffect s i) := by
  rw [exec_eq]
  rcases h with h | h <;> simp [h]

/-- An index that names a register (R32). -/
theorem keyIndex_of_lt {idx : Nibble} (h : idx.toNat < 8) : keyIndex idx = some (idx.setWidth 3) := by
  simp [keyIndex, h]

/-- An index that names none (R40). -/
theorem keyIndex_of_ge {idx : Nibble} (h : 8 ≤ idx.toNat) : keyIndex idx = none := by
  simp [keyIndex, h]

/-- The two words a busy core accepts are the words of NOP and RDS. -/
theorem decode_nop_iff (c : CmdWord) : decode c = .command .nop ↔ c = nopWord := by
  constructor
  · intro h
    have h' := (decode_command_cases h).1
    obtain ⟨h1, h2, h3⟩ := (rowNop_hit c).1 h'
    rw [← assemble_fields c, h1, h2, h3]; decide
  · rintro rfl; decide

theorem decode_rds_iff (c : CmdWord) : decode c = .command .rds ↔ c = rdsWord := by
  constructor
  · intro h
    have h' := (decode_command_cases h).1
    obtain ⟨h1, h2, h3⟩ := (rowRds_hit c).1 h'
    rw [← assemble_fields c, h1, h2, h3]; decide
  · rintro rfl; decide

/-- A word that is neither NOP nor RDS waits for `BUSY == 0` (R47). -/
theorem accepts_of_ne {c : CmdWord} (hn : c ≠ nopWord) (hr : c ≠ rdsWord) (s : State) : accepts s c = !s.BUSY := by
  rw [accepts, beq_eq_false_iff_ne.2 hn, beq_eq_false_iff_ne.2 hr, Bool.or_false, Bool.or_false]

/-- The acceptance condition, said of the command (R47). -/
theorem accepts_command {c : CmdWord} {i : Instr} (h : decode c = .command i) (s : State) :
    accepts s c = (!s.BUSY || !heldWhileBusy i) := by
  have hn := decode_nop_iff c
  have hr := decode_rds_iff c
  rw [h] at hn hr
  cases i with
  | nop => simp [accepts, heldWhileBusy, hn.1 rfl]
  | rds => simp [accepts, heldWhileBusy, hr.1 rfl]
  | ldk _ _ => rw [accepts_of_ne (by simpa using hn) (by simpa using hr)]; simp [heldWhileBusy]
  | ldl _ => rw [accepts_of_ne (by simpa using hn) (by simpa using hr)]; simp [heldWhileBusy]
  | ldh _ => rw [accepts_of_ne (by simpa using hn) (by simpa using hr)]; simp [heldWhileBusy]
  | enc => rw [accepts_of_ne (by simpa using hn) (by simpa using hr)]; simp [heldWhileBusy]
  | dec => rw [accepts_of_ne (by simpa using hn) (by simpa using hr)]; simp [heldWhileBusy]
  | rdl => rw [accepts_of_ne (by simpa using hn) (by simpa using hr)]; simp [heldWhileBusy]
  | rdh => rw [accepts_of_ne (by simpa using hn) (by simpa using hr)]; simp [heldWhileBusy]

/-- An illegal word is held while `BUSY == 1` (R47). -/
theorem accepts_illegal {c : CmdWord} {why : IllegalClass} (h : decode c = .illegal why) (s : State) :
    accepts s c = !s.BUSY := by
  have hn := decode_nop_iff c
  have hr := decode_rds_iff c
  rw [h] at hn hr
  exact accepts_of_ne (by simpa using hn) (by simpa using hr) s

/-- An accepted command has its effect. -/
theorem exec_of_accepted {c : CmdWord} {i : Instr} {s u : State} (hd : decode c = .command i)
    (ha : accepts s c = true) (hu : u.BUSY = s.BUSY) : exec i u = .next (commandEffect u i) := by
  rw [accepts_command hd] at ha
  apply exec_of_not_held
  rw [hu]
  simpa using ha

/-- A decoded command is well formed (R48). -/
theorem wellFormed_of_decode {c : CmdWord} {i : Instr} (h : decode c = .command i) : i.wellFormed = true := by
  cases i with
  | ldk idx imm =>
    obtain ⟨h1, h2, -⟩ := decode_command_cases h
    subst h2
    simpa [Instr.wellFormed] using ((rowLdk_hit c).1 h1).2
  | nop => rfl
  | ldl _ => rfl
  | ldh _ => rfl
  | enc => rfl
  | dec => rfl
  | rdl => rfl
  | rdh => rfl
  | rds => rfl

/-! ## What an effect leaves unchanged -/

@[simp] theorem commandEffect_port (s : State) (i : Instr) : (commandEffect s i).port = s.port := by
  cases i with
  | ldk idx w => cases hk : keyIndex idx <;> simp [commandEffect, hk]
  | _ => simp [commandEffect]

@[simp] theorem commandEffect_schedule (s : State) (i : Instr) : (commandEffect s i).schedule = s.schedule := by
  cases i with
  | ldk idx w => cases hk : keyIndex idx <;> simp [commandEffect, hk]
  | _ => simp [commandEffect]

@[simp] theorem commandEffect_choices (s : State) (i : Instr) : (commandEffect s i).choices = s.choices := by
  cases i with
  | ldk idx w => cases hk : keyIndex idx <;> simp [commandEffect, hk]
  | _ => simp [commandEffect]

/-- Every effect appends exactly the command's answer (R39). -/
theorem commandEffect_responses (s : State) (i : Instr) :
    (commandEffect s i).responses = s.responses ++ answerOf s i := by
  cases i with
  | ldk idx w => cases hk : keyIndex idx <;> simp [commandEffect, answerOf, hk]
  | _ => simp [commandEffect, answerOf]

/-- No well-formed command writes `ILL` (R18). -/
theorem commandEffect_ILL (s : State) {i : Instr} (h : i.wellFormed = true) : (commandEffect s i).ILL = s.ILL := by
  cases i with
  | ldk idx w =>
    have h8 : idx.toNat < 8 := by simpa [Instr.wellFormed] using h
    simp [commandEffect, keyIndex_of_lt h8]
  | _ => simp [commandEffect]

/-- Only ENC and DEC write the flags that drive the sequencer (R14 to R16). -/
theorem commandEffect_sequencer (s : State) {i : Instr} (h : ∀ m, i ≠ startCommand m) :
    (commandEffect s i).BUSY = s.BUSY ∧ (commandEffect s i).MODE = s.MODE ∧ (commandEffect s i).RND = s.RND := by
  cases i with
  | ldk idx w => cases hk : keyIndex idx <;> simp [commandEffect, hk]
  | enc => exact absurd rfl (h .encrypt)
  | dec => exact absurd rfl (h .decrypt)
  | _ => simp [commandEffect]

/-- The environment's script is no operand: an effect is the same under another port and schedule. -/
theorem commandEffect_script (s : State) (p : List CmdWord) (sch : List Turn) (i : Instr) :
    commandEffect { s with port := p, schedule := sch } i =
      { commandEffect s i with port := p, schedule := sch } := by
  cases i with
  | ldk idx w => simp only [commandEffect]; cases keyIndex idx <;> rfl
  | _ => rfl

end Sys2Proof.Machine
end

