-- ==== Sys2Proof/Laws/Flags.lean ====
section
/-! SUPPORT. The bits of `STATUS` (10_state.md R19) and the invariant's flag clauses. -/
namespace Sys2Proof.Machine

/-- `STATUS` fits its four fields (R19: bits 31:4 read as 0). -/
theorem statusWord_lt (s : State) : (statusWord s).toNat < 16 := by
  unfold statusWord
  cases s.BUSY <;> cases s.DONE <;> cases s.ILL <;> cases s.MODE <;> decide

theorem statusWord_bit0 (s : State) : (statusWord s).getLsbD 0 = s.BUSY := by
  unfold statusWord
  cases s.BUSY <;> cases s.DONE <;> cases s.ILL <;> cases s.MODE <;> decide

theorem statusWord_bit1 (s : State) : (statusWord s).getLsbD 1 = s.DONE := by
  unfold statusWord
  cases s.BUSY <;> cases s.DONE <;> cases s.ILL <;> cases s.MODE <;> decide

theorem statusWord_bit2 (s : State) : (statusWord s).getLsbD 2 = s.ILL := by
  unfold statusWord
  cases s.BUSY <;> cases s.DONE <;> cases s.ILL <;> cases s.MODE <;> decide

theorem statusWord_bit3 (s : State) : (statusWord s).getLsbD 3 = s.MODE.bit := by
  unfold statusWord
  cases s.BUSY <;> cases s.DONE <;> cases s.ILL <;> cases s.MODE <;> decide

theorem statusWord_high (s : State) (n : Nat) (hn : 4 ≤ n) : (statusWord s).getLsbD n = false := by
  rw [BitVec.getLsbD]
  apply Nat.testBit_lt_two_pow
  exact lt_of_lt_of_le (statusWord_lt s) (Nat.pow_le_pow_right (n := 2) (by decide) hn)

/-- The reserved bits of `STATUS` read as 0 in every state (R19, R23). -/
theorem statusWord_reserved (s : State) : (statusWord s).extractLsb' 4 28 = 0#28 := by
  unfold statusWord
  cases s.BUSY <;> cases s.DONE <;> cases s.ILL <;> cases s.MODE <;> decide

/-- `STATUS` depends on the four flags only. -/
theorem statusWord_congr {s t : State} (hm : t.MODE = s.MODE) (hi : t.ILL = s.ILL) (hd : t.DONE = s.DONE)
    (hb : t.BUSY = s.BUSY) : statusWord t = statusWord s := by
  rw [statusWord, statusWord, hm, hi, hd, hb]

end Sys2Proof.Machine
end

