-- ==== Sys2Proof/Laws/Invariant.lean ====
section
/-! SUPPORT. The invariant of R23 and what keeps it. -/
namespace Sys2Proof.Machine

/-- The clause about `STATUS` holds of every state, so three clauses are left. -/
theorem inv_iff {s : State} :
    s.Inv ↔ s.RND.toNat ≤ 32 ∧ (s.BUSY = false → s.RND = 0#6) ∧ (s.BUSY = true → s.DONE = false) :=
  ⟨fun h => ⟨h.1, h.2, h.3⟩, fun h => ⟨h.1, h.2.1, h.2.2, statusWord_reserved s⟩⟩

/-- The invariant reads four flags and the round counter, nothing else. -/
theorem inv_congr {s t : State} (h : s.Inv) (hr : t.RND = s.RND) (hb : t.BUSY = s.BUSY) (hd : t.DONE = s.DONE) :
    t.Inv := by
  rw [inv_iff] at h ⊢
  rw [hr, hb, hd]
  exact h

/-- An accepted command keeps it. -/
theorem commandEffect_inv {s : State} {i : Instr} (h : s.Inv) (hb : s.BUSY = true → heldWhileBusy i = false) :
    (commandEffect s i).Inv := by
  cases i with
  | ldk idx w => simp only [commandEffect]; cases keyIndex idx <;> exact inv_congr h rfl rfl rfl
  | nop => exact h
  | rds => exact inv_congr h rfl rfl rfl
  | rdl => exact inv_congr h rfl rfl rfl
  | rdh => exact inv_congr h rfl rfl rfl
  | enc => simp [inv_iff, commandEffect]
  | dec => simp [inv_iff, commandEffect]
  | ldl w => rw [inv_iff] at h ⊢; simp only [commandEffect, loadLower_RND, loadLower_BUSY, loadLower_DONE]
             exact ⟨h.1, h.2.1, fun _ => trivial⟩
  | ldh w => rw [inv_iff] at h ⊢; simp only [commandEffect, loadUpper_RND, loadUpper_BUSY, loadUpper_DONE]
             exact ⟨h.1, h.2.1, fun _ => trivial⟩

end Sys2Proof.Machine
end

