-- ==== Sys2Proof/Laws/KeySchedule.lean ====
section
/-! SUPPORT. The key file and the selector over it (10_state.md R12, R13; 41_key_schedule.md). -/
namespace Sys2Proof.Machine

/-- A write reaches the register it names and no other (R91). -/
theorem readKey_set (K : Vector Word 8) (i j : BitVec 3) (w : Word) :
    readKey (K.set i.toNat w i.isLt) j = if j = i then w else readKey K j := by
  unfold readKey
  by_cases h : j = i
  · subst h; simp
  · have hne : i.toNat ≠ j.toNat := fun e => h (BitVec.eq_of_toNat_eq e.symm)
    simp [h, hne]

/-- Two key files that read the same are the same. -/
theorem keyFile_eq {K K' : Vector Word 8} (h : ∀ j : BitVec 3, readKey K j = readKey K' j) : K = K' := by
  apply Vector.ext
  intro i hi
  have := h (BitVec.ofNat 3 i)
  simpa [readKey, Nat.mod_eq_of_lt hi] using this

/-- `kidx` by its bits (R66, derived form). -/
theorem kidx_bits (j : BitVec 5) :
    kidx j = j.extractLsb' 0 3 ^^^ (if j.getLsbD 4 && j.getLsbD 3 then 7#3 else 0#3) := by
  revert j; decide

/-- The loop reads the key through `readKey` only. -/
theorem loopPass_eq (sb : SBox) (K : Vector Word 8) (m : Mode) (i : BitVec 5) (a b : Word) :
    loopPass sb K m i (a, b) = (b, a ^^^ roundMix sb b (readKey K (kidx (pos m i)))) := rfl

/-- Passes compose one at a time, the latest last. -/
theorem loopPasses_succ (sb : SBox) (K : Vector Word 8) (m : Mode) (n : Nat) (p : Word × Word) :
    loopPasses sb K m (n + 1) p = loopPass sb K m (BitVec.ofNat 5 n) (loopPasses sb K m n p) := rfl

/-- R70 on the loop's index: the decrypt position of round `i` is the encrypt position of round `31 - i`. -/
theorem pos_decrypt_ofNat {i : Nat} (h : i < 32) : pos .decrypt (BitVec.ofNat 5 i) = BitVec.ofNat 5 (31 - i) := by
  interval_cases i <;> decide

/-- Every bit of a joined block (R11). -/
theorem joinHalves_getLsbD (u l : Word) (n : Nat) :
    (joinHalves u l).getLsbD n = if n < 32 then l.getLsbD n else u.getLsbD (n - 32) := by
  change ((u ++ l : BitVec (32 + 32))).getLsbD n = _
  rw [BitVec.getLsbD_append]

/-- The halves of a joined block (R11). -/
@[simp] theorem lo32_joinHalves (u l : Word) : lo32 (joinHalves u l) = l := by
  apply BitVec.eq_of_getLsbD_eq
  intro n hn
  rw [lo32, BitVec.getLsbD_extractLsb', joinHalves_getLsbD]
  simp [hn]

@[simp] theorem hi32_joinHalves (u l : Word) : hi32 (joinHalves u l) = u := by
  apply BitVec.eq_of_getLsbD_eq
  intro n hn
  rw [hi32, BitVec.getLsbD_extractLsb', joinHalves_getLsbD]
  simp [hn]

/-- A block is its two halves (R11). -/
@[simp] theorem joinHalves_split (x : Block) : joinHalves (hi32 x) (lo32 x) = x := by
  apply BitVec.eq_of_getLsbD_eq
  intro n hn
  rw [joinHalves_getLsbD, lo32, hi32, BitVec.getLsbD_extractLsb', BitVec.getLsbD_extractLsb']
  by_cases h : n < 32
  · simp [h]
  · simp [h, show n - 32 < 32 by omega, show 32 + (n - 32) = n by omega]

/-- The key file as a list, register by register. -/
theorem key_toList (K : Vector Word 8) : K.toList = [readKey K 0, readKey K 1, readKey K 2, readKey K 3, readKey K 4,
    readKey K 5, readKey K 6, readKey K 7] := by
  apply List.ext_getElem
  · simp
  · intro i h1 h2
    simp at h1
    interval_cases i <;> simp [readKey]

/-- One pass is undone by a pass on the swapped pair that reads the same subkey position. -/
theorem loopPass_undo (sb : SBox) (K : Vector Word 8) {m m' : Mode} {i j : BitVec 5} (h : pos m i = pos m' j)
    (p : Word × Word) :
    loopPass sb K m' j ((loopPass sb K m i p).2, (loopPass sb K m i p).1) = (p.2, p.1) := by
  simp [loopPass, h]

/-- The loop depends on the key only through the adder. -/
theorem loopPasses_congr (sb : SBox) {K K' : Vector Word 8}
    (h : ∀ (a : Word) (j : BitVec 3), modadd a (readKey K j) = modadd a (readKey K' j)) (m : Mode) (n : Nat)
    (p : Word × Word) : loopPasses sb K m n p = loopPasses sb K' m n p := by
  induction n with
  | zero => rfl
  | succ n ih =>
    rw [loopPasses_succ, loopPasses_succ, ih]
    unfold loopPass subkey
    rw [roundMix_congr sb (h _ _)]

end Sys2Proof.Machine
end

