-- ==== Sys2Proof/Laws/PerInstr.lean ====
section
/-! SUPPORT. What holds of every command, one lemma per constructor of `Instr`. -/

/-- The word of a well-formed command satisfies its own row of the opcode map (30_encoding.md R49) and no other. -/
def Sys2Proof.Laws.OwnRow.Statement (i : Sys2Proof.Instr) : Prop :=
  i.wellFormed = true → Sys2Proof.opcodeMap.filter (fun r => r.hit (Sys2Proof.encode i)) = [Sys2Proof.rowOf i]

namespace Sys2Proof.Laws.OwnRow

/-- The rows a word hits, decided by its fields one row at a time. -/
theorem hits_of_fields (op idx : Nibble) (imm : Word) :
    opcodeMap.filter (fun r => r.hit (assemble op idx imm)) =
      (if op = 0x0#4 ∧ idx = 0#4 ∧ imm = 0#32 then [rowNop] else []) ++
      (if op = 0x1#4 ∧ idx.toNat < 8 then [rowLdk] else []) ++
      (if op = 0x2#4 ∧ idx = 0#4 then [rowLdl] else []) ++
      (if op = 0x3#4 ∧ idx = 0#4 then [rowLdh] else []) ++
      (if op = 0x4#4 ∧ idx = 0#4 ∧ imm = 0#32 then [rowEnc] else []) ++
      (if op = 0x5#4 ∧ idx = 0#4 ∧ imm = 0#32 then [rowDec] else []) ++
      (if op = 0x6#4 ∧ idx = 0#4 ∧ imm = 0#32 then [rowRdl] else []) ++
      (if op = 0x7#4 ∧ idx = 0#4 ∧ imm = 0#32 then [rowRdh] else []) ++
      (if op = 0x8#4 ∧ idx = 0#4 ∧ imm = 0#32 then [rowRds] else []) := by
  have one : ∀ (r : Row) (p : Prop) [Decidable p] (l : List Row), (r.hit (assemble op idx imm) = true ↔ p) →
      (r :: l).filter (fun r => r.hit (assemble op idx imm)) =
        (if p then [r] else []) ++ l.filter (fun r => r.hit (assemble op idx imm)) := by
    intro r p _ l h
    by_cases hp : p
    · simp [h.2 hp, hp]
    · have : r.hit (assemble op idx imm) = false := by simpa using mt h.1 hp
      simp [this, hp]
  unfold opcodeMap
  rw [one _ _ _ (rowNop_hit _), one _ _ _ (rowLdk_hit _), one _ _ _ (rowLdl_hit _), one _ _ _ (rowLdh_hit _),
    one _ _ _ (rowEnc_hit _), one _ _ _ (rowDec_hit _), one _ _ _ (rowRdl_hit _), one _ _ _ (rowRdh_hit _),
    one _ _ _ (rowRds_hit _)]
  simp only [opField_assemble, idxField_assemble, immField_assemble, List.filter_nil, List.append_nil,
    List.append_assoc]

theorem nop : Statement .nop := fun _ => by simp [encode, hits_of_fields, rowOf]
theorem ldk (idx : Nibble) (imm : Word) : Statement (.ldk idx imm) := fun h => by
  have h8 : idx.toNat < 8 := by simpa [Instr.wellFormed] using h
  simp [encode, hits_of_fields, rowOf, h8]
theorem ldl (imm : Word) : Statement (.ldl imm) := fun _ => by simp [encode, hits_of_fields, rowOf]
theorem ldh (imm : Word) : Statement (.ldh imm) := fun _ => by simp [encode, hits_of_fields, rowOf]
theorem enc : Statement .enc := fun _ => by simp [encode, hits_of_fields, rowOf]
theorem dec : Statement .dec := fun _ => by simp [encode, hits_of_fields, rowOf]
theorem rdl : Statement .rdl := fun _ => by simp [encode, hits_of_fields, rowOf]
theorem rdh : Statement .rdh := fun _ => by simp [encode, hits_of_fields, rowOf]
theorem rds : Statement .rds := fun _ => by simp [encode, hits_of_fields, rowOf]

end Sys2Proof.Laws.OwnRow
end

