-- ==== Sys2Proof/Laws/Step.lean ====
section
/-! SUPPORT. Everything one step can do, said once (00_scope.md R9). -/
namespace Sys2Proof.Machine

/-! ## Using the environment's entry changes nothing the agents look at -/

@[simp] theorem hostEnabled_afterTurn (s : State) : hostEnabled (afterTurn s) = hostEnabled s := rfl
@[simp] theorem sequencerEnabled_afterTurn (s : State) : sequencerEnabled (afterTurn s) = sequencerEnabled s := rfl
@[simp] theorem accepts_afterTurn (s : State) (c : CmdWord) : accepts (afterTurn s) c = accepts s c := rfl
@[simp] theorem statusWord_afterTurn (s : State) : statusWord (afterTurn s) = statusWord s := rfl

/-- Where no free choice is taken the counter stays. -/
theorem afterTurn_choices (s : State) (h : hostEnabled s = false ∨ sequencerEnabled s = false) :
    (afterTurn s).choices = s.choices := by
  rcases h with h | h <;> simp [afterTurn, h]

/-- Using up nothing: with an empty schedule and at most one agent enabled the entry leaves the state as it is. -/
theorem afterTurn_eq_self {s : State} (hs : s.schedule = []) (h : hostEnabled s = false ∨ sequencerEnabled s = false) :
    afterTurn s = s := by
  apply State.ext <;> simp [hs, afterTurn_choices s h]

/-! ## What a step can do -/

/-- What an agents' step can do: take the accepted word, take the sequencer's step, wait, or be stuck. -/
inductive AgentsCase (sb : SBox) (s : State) : Result → Prop where
  | command {c rest i} (hp : s.port = c :: rest) (ha : accepts s c = true) (hd : decode c = .command i) :
      AgentsCase sb s (.next (commandEffect { s with port := rest } i))
  | illegal {c rest why} (hp : s.port = c :: rest) (hb : s.BUSY = false) (hd : decode c = .illegal why) :
      AgentsCase sb s (.next (raiseIllegalCommand { s with port := rest }))
  | round (hb : s.BUSY = true) (hr : s.RND.toNat < 32) : AgentsCase sb s (.next (roundStep sb s))
  | final (hb : s.BUSY = true) (hr : s.RND.toNat = 32) : AgentsCase sb s (.next (finalStep s))
  | idle (hb : s.BUSY = false) (hp : s.port = []) : AgentsCase sb s (.next s)
  | stuck (hb : s.BUSY = true) (hr : 32 < s.RND.toNat) (hp : hostEnabled s = false) :
      AgentsCase sb s (.fault .sequencerStuck)

/-- A host's step that has a word to take. -/
theorem hostStep_case (sb : SBox) {s : State} (h : hostEnabled s = true) : AgentsCase sb s (hostStep s) := by
  unfold hostEnabled at h
  unfold hostStep
  split at h
  · cases h
  · rename_i c rest hp
    simp only [performWord]
    split
    · rename_i i hd
      rw [exec_of_accepted (u := { s with port := rest }) hd h rfl]
      exact .command hp h hd
    · rename_i why hd
      have hb : s.BUSY = false := by simpa [accepts_illegal hd] using h
      exact .illegal hp hb hd

/-- The sequencer's step, when it has one. -/
theorem sequencerStep_case (sb : SBox) {s : State} (h : sequencerEnabled s = true) :
    AgentsCase sb s (.next (sequencerStep sb s)) := by
  simp only [sequencerEnabled, Bool.and_eq_true, decide_eq_true_eq] at h
  unfold sequencerStep
  split
  · rename_i hr; exact .round h.1 hr
  · rename_i hr; exact .final h.1 (by omega)

/-- A quiescent core accepts whatever is presented (R47). -/
theorem port_nil_of_quiescent {s : State} (hb : s.BUSY = false) (hh : hostEnabled s = false) : s.port = [] := by
  unfold hostEnabled at hh
  split at hh
  · assumption
  · simp [accepts, hb] at hh

/-- Everything an agents' step can do. -/
theorem agentsStep_case (sb : SBox) (hf : Bool) (s : State) : AgentsCase sb s (agentsStep sb hf s) := by
  unfold agentsStep
  split
  · rename_i h
    simp only [Bool.and_eq_true] at h
    exact hostStep_case sb h.1
  · rename_i h
    split
    · rename_i h'; exact sequencerStep_case sb h'
    · rename_i h'
      have hh : hostEnabled s = false := by simpa [h'] using h
      split
      · rename_i hb
        refine .stuck hb ?_ hh
        simpa [sequencerEnabled, hb] using h'
      · rename_i hb
        have hb : s.BUSY = false := by simpa using hb
        exact .idle hb (port_nil_of_quiescent hb hh)

/-- A step with a reset at the head of the schedule (R130). -/
theorem stepWith_reset {sb : SBox} {free : Nat → Bool} {s : State} {w : Bool} {sch : List Turn}
    (hs : s.schedule = .reset w :: sch) : stepWith sb free s = .next (resetAction w (afterTurn s)) := by
  unfold stepWith; rw [hs]

/-- A step with none is a step of the agents. -/
theorem stepWith_agents {sb : SBox} {free : Nat → Bool} {s : State} (hs : noResetNow s) :
    stepWith sb free s = agentsStep sb (hostFirst free s) (afterTurn s) := by
  unfold stepWith
  split
  · rename_i w sch h; exact absurd h (hs w sch)
  · rfl
  · rfl
  · rfl

/-- Everything a step can do. -/
theorem stepWith_case {sb : SBox} {free : Nat → Bool} {s t : State} (h : stepWith sb free s = .next t) :
    (∃ w sch, s.schedule = .reset w :: sch ∧ t = resetAction w (afterTurn s)) ∨
      (noResetNow s ∧ AgentsCase sb (afterTurn s) (.next t)) := by
  by_cases hr : noResetNow s
  · rw [stepWith_agents hr] at h
    exact .inr ⟨hr, h ▸ agentsStep_case ..⟩
  · simp only [noResetNow, not_forall, not_not] at hr
    obtain ⟨w, sch, hs⟩ := hr
    rw [stepWith_reset hs] at h
    injection h with h
    exact .inl ⟨w, sch, hs, h.symm⟩

/-! ## Which agent moves -/

/-- The host's step, where it has one and moves first or alone. -/
theorem agentsStep_host {sb : SBox} {hf : Bool} {s : State} (hh : hostEnabled s = true)
    (h : sequencerEnabled s = false ∨ hf = true) : agentsStep sb hf s = hostStep s := by
  rcases h with h | h <;> simp [agentsStep, hh, h]

/-- The sequencer's step, where it has one and moves first or alone. -/
theorem agentsStep_sequencer {sb : SBox} {hf : Bool} {s : State} (hq : sequencerEnabled s = true)
    (h : hostEnabled s = false ∨ hf = false) : agentsStep sb hf s = .next (sequencerStep sb s) := by
  rcases h with h | h <;> simp [agentsStep, hq, h]

/-- The word presented decides whether the host has a step. -/
theorem hostEnabled_cons {s : State} {c : CmdWord} {rest : List CmdWord} (hp : s.port = c :: rest) :
    hostEnabled s = accepts s c := by
  unfold hostEnabled; rw [hp]

/-- The host's step performs the word presented, in the state whose port has lost it. -/
theorem hostStep_cons {s : State} {c : CmdWord} {rest : List CmdWord} (hp : s.port = c :: rest) :
    hostStep s = performWord c { s with port := rest } := by
  unfold hostStep; rw [hp]

/-- The sequencer has a step exactly when `BUSY == 1` and `RND <= 32`. -/
theorem sequencerEnabled_iff (s : State) : sequencerEnabled s = true ↔ s.BUSY = true ∧ s.RND.toNat ≤ 32 := by
  simp [sequencerEnabled]

/-- The step takes the word presented: what `hostMoves` is for. -/
theorem step_of_hostMoves {s : State} {c : CmdWord} {rest : List CmdWord} (hp : s.port = c :: rest)
    (ha : accepts s c = true) (hm : hostMoves s) : step s = performWord c { afterTurn s with port := rest } := by
  rw [step, stepWith_agents hm.1, agentsStep_host (by simp [hostEnabled_cons hp, ha]) (by simpa using hm.2),
    hostStep_cons (s := afterTurn s) hp]

/-- The step is the sequencer's: what `sequencerMoves` is for. -/
theorem step_of_sequencerMoves {s : State} (hm : sequencerMoves s) (hq : sequencerEnabled s = true) :
    step s = .next (sequencerStep Config.SBOX (afterTurn s)) := by
  rw [step, stepWith_agents hm.1, agentsStep_sequencer (by simpa using hq) (by simpa using hm.2)]

/-- A quiescent core has no sequencer step, so the host moves. -/
theorem hostMoves_of_quiescent {s : State} (hb : s.BUSY = false) (hn : noResetNow s) : hostMoves s :=
  ⟨hn, .inl (by simp [sequencerEnabled, hb])⟩

theorem noResetNow_of_ahead {s : State} (h : s.NoResetAhead) : noResetNow s := by
  intro w sch hs
  exact h (.reset w) (by simp [hs]) w rfl

/-- Every step uses up one entry of the schedule. -/
theorem stepWith_schedule {sb : SBox} {free : Nat → Bool} {s t : State} (h : stepWith sb free s = .next t) :
    t.schedule = s.schedule.tail := by
  rcases stepWith_case h with ⟨w, sch, -, rfl⟩ | ⟨-, hc⟩
  · simp
  · cases hc <;> simp

/-- So a script without resets stays one. -/
theorem noResetAhead_step {sb : SBox} {free : Nat → Bool} {s t : State} (hn : s.NoResetAhead)
    (h : stepWith sb free s = .next t) : t.NoResetAhead := by
  intro e he
  rw [stepWith_schedule h] at he
  exact hn e (List.mem_of_mem_tail he)

/-- A quiescent core performs the command whose word is presented. -/
theorem step_quiescent {s : State} {c : CmdWord} {i : Instr} {rest : List CmdWord} (hb : s.BUSY = false)
    (hn : noResetNow s) (hp : s.port = c :: rest) (hd : decode c = .command i) :
    step s = .next (commandEffect { s with port := rest, schedule := s.schedule.tail } i) := by
  rw [step_of_hostMoves hp (by simp [accepts, hb]) (hostMoves_of_quiescent hb hn)]
  simp only [performWord, hd]
  rw [exec_of_not_held (.inl (by simpa using hb))]
  congr 2
  apply State.ext <;> simp
  exact afterTurn_choices s (.inr (by simp [sequencerEnabled, hb]))

end Sys2Proof.Machine
end

