-- ==== Sys2Proof/Laws/Run.lean ====
section
/-! SUPPORT. Runs, one step at a time. -/
namespace Sys2Proof.Machine

theorem runWith_zero (sb : SBox) (free : Nat → Bool) (s : State) : runWith sb free 0 s = .next s := rfl

/-- A run whose first step answers `t` goes on from `t`. -/
theorem runWith_step {sb : SBox} {free : Nat → Bool} {s t : State} (h : stepWith sb free s = .next t) (n : Nat) :
    runWith sb free (n + 1) s = runWith sb free n t := by
  simp [runWith, h]

/-- A run that gets anywhere gets past its first step. -/
theorem runWith_succ_next {sb : SBox} {free : Nat → Bool} {s t : State} {n : Nat}
    (h : runWith sb free (n + 1) s = .next t) :
    ∃ u, stepWith sb free s = .next u ∧ runWith sb free n u = .next t := by
  unfold runWith at h
  split at h
  · rename_i u hu; exact ⟨u, hu, h⟩
  · cases h
  · cases h

/-- Runs compose. -/
theorem runWith_add {sb : SBox} {free : Nat → Bool} {m n : Nat} {s t : State} (h : runWith sb free m s = .next t) :
    runWith sb free (m + n) s = runWith sb free n t := by
  induction m generalizing s with
  | zero =>
    rw [runWith_zero] at h
    injection h with h
    rw [h, Nat.zero_add]
  | succ m ih =>
    obtain ⟨u, hu, hr⟩ := runWith_succ_next h
    rw [Nat.succ_add, runWith_step hu, ih hr]

/-- What holds at the start and is kept by every step holds of every state a run reaches. -/
theorem runWith_keeps {sb : SBox} {free : Nat → Bool} {P : State → Prop}
    (hstep : ∀ s t, P s → stepWith sb free s = .next t → P t) {n : Nat} {s t : State} (hs : P s)
    (h : runWith sb free n s = .next t) : P t := by
  induction n generalizing s with
  | zero => rw [runWith_zero] at h; injection h with h; exact h ▸ hs
  | succ n ih =>
    obtain ⟨u, hu, hr⟩ := runWith_succ_next h
    exact ih (hstep s u hs hu) hr

/-- The host's run, one step at a time. -/
theorem coreRun_succ (M : Host.Core) (n : Nat) (s : M.State) :
    Host.Core.run M (n + 1) s = match M.step s with
      | .next t => Host.Core.run M n t
      | .fault r => .fault r
      | .refused r => .refused r := rfl

/-- The model's `run` is the host's. -/
theorem run_eq_core_run (n : Nat) (s : State) : Host.Core.run Sys2Proof.core n s = run n s := by
  induction n generalizing s with
  | zero => rfl
  | succ n ih =>
    refine (coreRun_succ Sys2Proof.core n s).trans ?_
    change _ = runWith Config.SBOX Config.hostGoesFirst (n + 1) s
    have e : Sys2Proof.core.step s = stepWith Config.SBOX Config.hostGoesFirst s := rfl
    rw [runWith, e]
    cases stepWith Config.SBOX Config.hostGoesFirst s with
    | next t => exact ih t
    | fault f => rfl
    | refused r => rfl

end Sys2Proof.Machine
end

