-- ==== Sys2Proof/Tests/Slice0.lean ====
section
/-! SUPPORT. Tests of single definitions and single steps, and a witness for the hypotheses of each statement. The
expected values are those of spec/95_test_vectors.md (section named with each) or are worked out from the rule named. -/
namespace Sys2Proof.Tests

open Sys2Proof.Machine

/-! ## Helpers -/

/-- The next state, if there is one. -/
def nextOf : Result → Option State
  | .next t => some t
  | .fault _ => none
  | .refused _ => none

/-- `SBOX_AFF` (section 2), a made-up instantiation for testing: no claim about the real table. -/
def sboxAff : SBox := fun t n => BitVec.ofNat 4 ((2 * t.val + 3) * n.toNat + t.val)

/-- `SBOX_ID` (section 2). -/
def sboxId : SBox := fun _ n => n

/-- Key `K1` (section 1), written out as the spec lists its words. -/
def key1 : Vector Word 8 :=
  #v[0x05060708#32, 0x01020304#32, 0x15161718#32, 0x11121314#32, 0x25262728#32, 0x21222324#32, 0x35363738#32,
    0x31323334#32]

/-- A quiescent core that holds a result and an error, with one response delivered. -/
def quiet : State :=
  { State.reset with K := key1, A := 0x89ABCDEF#32, B := 0x01234567#32, DONE := true, ILL := true, responses := [7#32] }

/-- A core in an encryption, `n` rounds done. -/
def busy (n : BitVec 6) : State :=
  { State.reset with K := key1, A := 0x89ABCDEF#32, B := 0x01234567#32, BUSY := true, RND := n }

/-- `s` with the words `p` presented and the choices `sch` to come. -/
def feed (p : List CmdWord) (sch : List Turn) (s : State) : State := { s with port := p, schedule := sch }

/-! ## WellFormed: the one check refuses what it is for -/

theorem test_wellFormed_key7 : (Instr.ldk 7#4 0xFFFFFFFF#32).wellFormed = true := by decide
theorem test_wellFormed_refuses_key8 : (Instr.ldk 8#4 0#32).wellFormed = false := by decide

/-! ## Decode: words written out from R45 and R49 -/

theorem test_decode_nop : decode 0b0000000000000000000000000000000000000000#40 = .command .nop := by decide
theorem test_decode_ldk : decode 0b0001010110000000000000000000000000000001#40 = .command (.ldk 5#4 0x80000001#32) := by
  decide
theorem test_decode_ldl : decode 0b0010000000000000000000000000000100000010#40 = .command (.ldl 0x00000102#32) := by
  decide
theorem test_decode_ldh : decode 0b0011000010000000000000000000000000000000#40 = .command (.ldh 0x80000000#32) := by
  decide
theorem test_decode_enc : decode 0b0100000000000000000000000000000000000000#40 = .command .enc := by decide
theorem test_decode_dec : decode 0b0101000000000000000000000000000000000000#40 = .command .dec := by decide
theorem test_decode_rdl : decode 0b0110000000000000000000000000000000000000#40 = .command .rdl := by decide
theorem test_decode_rdh : decode 0b0111000000000000000000000000000000000000#40 = .command .rdh := by decide
theorem test_decode_rds : decode 0b1000000000000000000000000000000000000000#40 = .command .rds := by decide
theorem test_decode_reserved_op : decode 0x9000000000#40 = .illegal .reservedOp := by decide
theorem test_decode_key_index : decode 0x1F00000000#40 = .illegal .keyIndexOutOfRange := by decide
theorem test_decode_load_index : decode 0x3100000000#40 = .illegal .loadIndexNotZero := by decide
theorem test_decode_fixed_field : decode 0x0000000001#40 = .illegal .fixedFieldNotZero := by decide
theorem test_table_word : decodeTableWord 40 0x1311121314 = some (.ldk 3#4 0x11121314#32) := by decide
theorem test_table_word_illegal : decodeTableWord 40 0x8000000001 = none := by decide
/-- R54's example spelling. -/
theorem test_asm : (Instr.ldk 3#4 0x01020304#32).asm = "LDK 3, 0x01020304" := by decide

/-! ## Datapath (sections 3 to 6) -/

theorem test_modadd_carry : modadd 0x80000000#32 0x80000000#32 = 1#32 := by decide
theorem test_modadd_all_ones : modadd 0x80000000#32 0x7FFFFFFF#32 = 0#32 := by decide
theorem test_subst32 : subst32 sboxAff 0x12345678#32 = 0x84C00C48#32 := by decide
theorem test_rotl11 : rotl11 0x12345678#32 = 0xA2B3C091#32 := by decide
theorem test_roundMix : roundMix sboxAff 0x01234567#32 0x05060708#32 = 0xBBB7EB87#32 := by decide
theorem test_kidx : (List.range 32).map (fun j => (kidx (BitVec.ofNat 5 j)).toNat) =
    [0, 1, 2, 3, 4, 5, 6, 7, 0, 1, 2, 3, 4, 5, 6, 7, 0, 1, 2, 3, 4, 5, 6, 7, 7, 6, 5, 4, 3, 2, 1, 0] := by decide
theorem test_key_components : keyOfComponents 0x0102030405060708#64 0x1112131415161718#64 0x2122232425262728#64
    0x3132333435363738#64 = key1 := by decide
theorem test_encrypt : encrypt sboxAff 0x0123456789ABCDEF#64 key1 = 0x86C6115FC6CA2DAD#64 := by decide
theorem test_decrypt : decrypt sboxAff 0x0123456789ABCDEF#64 key1 = 0x2B98D958CE5DF314#64 := by decide
/-- R33's example: the bytes "ABCDEFGH". -/
theorem test_packBlock : packBlock [0x41#8, 0x42#8, 0x43#8, 0x44#8, 0x45#8, 0x46#8, 0x47#8, 0x48#8] =
    0x4847464544434241#64 := by decide
/-- R35's example: the bytes "AB", zero-padded. -/
theorem test_packBlock_short : packBlock [0x41#8, 0x42#8] = 0x4241#64 := by decide

/-! ## One step of each command (44_cmd_load_read.md, 45_cmd_transform.md), as the first instruction after reset -/

theorem test_step_nop : nextOf (step (State.reset.withFetchWord 40 0x0000000000)) = some State.reset := by decide
theorem test_step_ldk : (nextOf (step (State.reset.withFetchWord 40 0x1311121314))).map (·.K) =
    some #v[0#32, 0#32, 0#32, 0x11121314#32, 0#32, 0#32, 0#32, 0#32] := by decide
theorem test_step_ldl : nextOf (step (State.reset.withFetchWord 40 0x2089ABCDEF)) =
    some { State.reset with A := 0x89ABCDEF#32 } := by decide
theorem test_step_ldh : nextOf (step (State.reset.withFetchWord 40 0x3001234567)) =
    some { State.reset with B := 0x01234567#32 } := by decide
theorem test_step_enc : nextOf (step (State.reset.withFetchWord 40 0x4000000000)) =
    some { State.reset with BUSY := true } := by decide
theorem test_step_dec : nextOf (step (State.reset.withFetchWord 40 0x5000000000)) =
    some { State.reset with BUSY := true, MODE := .decrypt } := by decide
theorem test_step_rdl : (nextOf (step (quiet.withFetchWord 40 0x6000000000))).map (·.responses) =
    some [7#32, 0x89ABCDEF#32] := by decide
theorem test_step_rdh : (nextOf (step (quiet.withFetchWord 40 0x7000000000))).map (·.responses) =
    some [7#32, 0x01234567#32] := by decide
/-- `MODE` 0, `ILL` 1, `DONE` 1, `BUSY` 0 reads as 6 (R19). -/
theorem test_step_rds : (nextOf (step (quiet.withFetchWord 40 0x8000000000))).map (·.responses) =
    some [7#32, 6#32] := by decide
theorem test_step_illegal : nextOf (step (State.reset.withFetchWord 40 0x1800000000)) =
    some { State.reset with ILL := true } := by decide
/-- R92: a load ends the result. -/
theorem test_ldl_clears_done : (nextOf (exec (.ldl 0#32) quiet)).map (·.DONE) = some false := by decide
theorem test_enc_clears_done : (nextOf (exec .enc quiet)).map (fun t => (t.DONE, t.ILL)) = some (false, true) := by decide

/-! ## One step of the sequencer (section 7, trace T1), under both orders of two enabled agents -/

theorem test_round_first : (nextOf (stepWith sboxAff (fun _ => true) (busy 0#6))).map (fun t => (t.A, t.B, t.RND)) =
    some (0x01234567#32, 0x321C2668#32, 1#6) := by decide
/-- T1's last line, from the pair after round 30. -/
theorem test_round_last :
    (nextOf (stepWith sboxAff (fun _ => true) { busy 31#6 with A := 0x009D8275#32, B := 0x86C6115F#32 })).map
      (fun t => (t.A, t.B, t.RND, t.BUSY)) = some (0x86C6115F#32, 0xC6CA2DAD#32, 32#6, true) := by decide
theorem test_final :
    (nextOf (stepWith sboxAff (fun _ => true) { busy 32#6 with A := 0x86C6115F#32, B := 0xC6CA2DAD#32 })).map
      (fun t => (t.A, t.B, t.RND, t.BUSY, t.DONE)) =
    some (0xC6CA2DAD#32, 0x86C6115F#32, 0#6, false, true) := by decide
/-- R47: RDL waits, and the sequencer goes on. -/
theorem test_held : (nextOf (stepWith sboxAff (fun _ => true) (feed [0x6000000000#40] [] (busy 0#6)))).map
    (fun t => (t.port, t.responses, t.RND)) = some ([0x6000000000#40], [], 1#6) := by decide
/-- R47: RDS does not wait; `BUSY` reads as 1. -/
theorem test_polled : (nextOf (stepWith sboxAff (fun _ => true) (feed [0x8000000000#40] [] (busy 0#6)))).map
    (fun t => (t.port, t.responses, t.RND)) = some ([], [1#32], 0#6) := by decide
theorem test_polled_later : (nextOf (stepWith sboxAff (fun _ => false) (feed [0x8000000000#40] [] (busy 0#6)))).map
    (fun t => (t.port, t.responses, t.RND)) = some ([0x8000000000#40], [], 1#6) := by decide
theorem test_reset_mid_transform : nextOf (step (feed [0x6000000000#40] [.reset false] (busy 10#6))) =
    some (feed [0x6000000000#40] [] State.reset) := by decide
theorem test_reset_withdraws : nextOf (step (feed [0x6000000000#40] [.reset true] (busy 10#6))) =
    some State.reset := by decide

/-! ## Witnesses: the hypotheses of each statement are met

Named `witness_<statement>`, one for each clause, at the ends of its range. -/

theorem witness_DecodeOfEncode : (Instr.ldk 7#4 0xFFFFFFFF#32).wellFormed = true ∧ Instr.rds.wellFormed = true := by
  decide
theorem witness_EncodeOfDecode : decode 0x17FFFFFFFF#40 = .command (.ldk 7#4 0xFFFFFFFF#32) := by decide
theorem witness_DecodeFollowsTheRows : (∃ why, decode 0x9000000000#40 = .illegal why) ∧
    decode 0x1000000000#40 = .command (.ldk 0#4 0#32) := ⟨⟨_, rfl⟩, by decide⟩
theorem witness_IllegalWordsExactly : decode 0xFFFFFFFFFF#40 = .illegal .reservedOp ∧
    decode 0x1800000000#40 = .illegal .keyIndexOutOfRange ∧ decode 0x2F00000000#40 = .illegal .loadIndexNotZero ∧
    decode 0x8000000001#40 = .illegal .fixedFieldNotZero ∧ decode 0x0100000000#40 = .illegal .fixedFieldNotZero := by
  decide
theorem witness_LdkWritesOneKeyWord : (7#4).toNat < 8 ∧ quiet.BUSY = false ∧ 8 ≤ (8#4).toNat := by decide
/-- For `LdlLoadsLowerHalf`, `LdhLoadsUpperHalf`, `RdlRespondsLowerHalf`, `RdhRespondsUpperHalf`,
`EncArmsTheSequencer`, `DecArmsTheSequencer`. -/
theorem witness_quiescent : State.reset.BUSY = false ∧ quiet.BUSY = false := by decide
/-- For `StatusIsTheFlagView`, `RdsRespondsStatus`, `DoneSpansTheResult`, `StepKeepsInv`, `CoreNeverStops`,
`EveryWordIsAccepted`, `ScheduleShowsOnlyInStatusPolls`. -/
theorem witness_inv : State.reset.Inv ∧ quiet.Inv ∧ (busy 0#6).Inv ∧ (busy 32#6).Inv :=
  ⟨⟨by decide, by decide, by decide, by decide⟩, ⟨by decide, by decide, by decide, by decide⟩,
    ⟨by decide, by decide, by decide, by decide⟩, ⟨by decide, by decide, by decide, by decide⟩⟩
theorem witness_HeldMeaningAnswersTheSameState : heldWhileBusy .enc = true ∧ (busy 0#6).BUSY = true := by decide
theorem witness_LdkTermWithReservedIndexIsIllegal : 8 ≤ (8#4).toNat ∧ 8 ≤ (15#4).toNat ∧ quiet.BUSY = false := by decide
theorem witness_LoadFrame : (Instr.ldk 7#4 1#32).wellFormed = true ∧
    (∃ t, exec (.ldk 7#4 1#32) quiet = .next t) ∧ (∃ t, exec (.ldl 1#32) quiet = .next t) ∧
    (∃ t, exec (.ldh 1#32) quiet = .next t) ∧ (∃ t, exec .nop (busy 5#6) = .next t) :=
  ⟨by decide, ⟨_, rfl⟩, ⟨_, rfl⟩, ⟨_, rfl⟩, ⟨_, rfl⟩⟩
theorem witness_ReadFrame : (∃ t, exec .rdl quiet = .next t) ∧ (∃ t, exec .rdh quiet = .next t) ∧
    ∃ t, exec .rds (busy 5#6) = .next t := ⟨⟨_, rfl⟩, ⟨_, rfl⟩, ⟨_, rfl⟩⟩
theorem witness_StartFrame : (∃ t, exec .enc quiet = .next t) ∧ ∃ t, exec .dec quiet = .next t :=
  ⟨⟨_, rfl⟩, ⟨_, rfl⟩⟩

/-- On a quiescent core, and on a busy one with the host on turn. -/
theorem witness_StepRunsTheDecodedCommand :
    (decode 0x4000000000#40 = .command .enc ∧ accepts (feed [0x4000000000#40] [] quiet) 0x4000000000#40 = true ∧
      hostMoves (feed [0x4000000000#40] [] quiet)) ∧
    (decode 0x8000000000#40 = .command .rds ∧
      accepts (feed [0x8000000000#40] [.host] (busy 0#6)) 0x8000000000#40 = true ∧
      hostMoves (feed [0x8000000000#40] [.host] (busy 0#6))) :=
  ⟨⟨by decide, by decide, ⟨fun _ _ => nofun, .inl (by decide)⟩⟩,
    ⟨by decide, by decide, ⟨fun _ _ h => by simp [feed] at h, .inr (by decide)⟩⟩⟩
theorem witness_FetchedWordRunsNext : decodeTableWord 40 0x17FFFFFFFF = some (.ldk 7#4 0xFFFFFFFF#32) ∧
    quiet.BUSY = false ∧ decodeTableWord 40 0x8000000000 = some .rds ∧ heldWhileBusy .rds = false := by decide
theorem witness_IllegalWordSetsOnlyIll : decode 0x1800000000#40 = .illegal .keyIndexOutOfRange ∧
    (feed [0x1800000000#40] [] quiet).BUSY = false ∧ noResetNow (feed [0x1800000000#40] [] quiet) :=
  ⟨by decide, by decide, fun _ _ => nofun⟩
theorem witness_RoundStepIsOnePass : sequencerMoves (busy 0#6) ∧ sequencerMoves (busy 31#6) ∧
    (busy 31#6).BUSY = true ∧ (busy 31#6).RND.toNat < 32 :=
  ⟨⟨fun _ _ => nofun, .inl (by decide)⟩, ⟨fun _ _ => nofun, .inl (by decide)⟩, by decide, by decide⟩
theorem witness_FinalStepSwapsAndStops : sequencerMoves (busy 32#6) ∧ (busy 32#6).BUSY = true ∧
    (busy 32#6).RND = 32#6 := ⟨⟨fun _ _ => nofun, .inl (by decide)⟩, by decide, by decide⟩
/-- An accepted word with the host on turn; a held RDL that a step leaves held, and one that FINAL lets in. -/
theorem witness_HeldWordStaysPresented :
    (accepts (feed [0x0000000000#40] [.host] (busy 31#6)) 0x0000000000#40 = true ∧
      hostMoves (feed [0x0000000000#40] [.host] (busy 31#6))) ∧
    (accepts (feed [0x6000000000#40] [.host] (busy 31#6)) 0x6000000000#40 = false ∧
      ∃ t, step (feed [0x6000000000#40] [.host] (busy 31#6)) = .next t) ∧
    (accepts (feed [0x6000000000#40] [.host] (busy 32#6)) 0x6000000000#40 = false ∧
      ∃ t, step (feed [0x6000000000#40] [.host] (busy 32#6)) = .next t ∧ accepts t 0x6000000000#40 = true) :=
  ⟨⟨by decide, fun _ _ h => by simp [feed] at h, .inr (by decide)⟩, ⟨by decide, _, rfl⟩, ⟨by decide, _, rfl, by decide⟩⟩
/-- A key word changed by LDK, and one changed by reset; two states that differ only in the key, before ROUND and
before RDL. -/
theorem witness_KeyFileAccess :
    (∃ t, step (feed [0x1700000001#40] [] quiet) = .next t ∧ readKey t.K 7 ≠ readKey quiet.K 7) ∧
    (∃ t, step (feed [] [.reset false] quiet) = .next t ∧ readKey t.K 0 ≠ readKey quiet.K 0) ∧
    (∃ t t', step (busy 0#6) = .next t ∧ step { busy 0#6 with K := State.reset.K } = .next t') ∧
    ∃ t t', step (feed [0x6000000000#40] [] quiet) = .next t ∧
      step { feed [0x6000000000#40] [] quiet with K := State.reset.K } = .next t' :=
  ⟨⟨_, rfl, by decide⟩, ⟨_, rfl, by decide⟩, ⟨_, _, rfl, rfl⟩, ⟨_, _, rfl, rfl⟩⟩
/-- `ILL` cleared by a reset, set by an illegal word, and kept by a step that is neither. -/
theorem witness_IllIsStickyUntilReset :
    (∃ t, step (feed [] [.reset true] quiet) = .next t ∧ quiet.ILL = true ∧ t.ILL = false) ∧
    (∃ t, step (feed [0xF000000000#40] [] State.reset) = .next t ∧ t.ILL = true) ∧
    noResetNow (feed [0xF000000000#40] [] State.reset) ∧ (∃ t, step quiet = .next t ∧ t.ILL = true) ∧
    ¬ noResetNow (feed [] [.reset true] quiet) :=
  ⟨⟨_, rfl, by decide⟩, ⟨_, rfl, by decide⟩, fun _ _ => nofun, ⟨_, rfl, by decide⟩, fun h => h true [] rfl⟩
/-- `BUSY` set by DEC, which also changes `MODE`; `BUSY` cleared by FINAL. -/
theorem witness_BusyAndModeWriters :
    (∃ t, step (feed [0x5000000000#40] [] quiet) = .next t ∧ t.BUSY = true ∧ t.MODE ≠ quiet.MODE) ∧
    ∃ t, step (busy 32#6) = .next t ∧ t.BUSY = false := ⟨⟨_, rfl, by decide⟩, ⟨_, rfl, by decide⟩⟩
/-- `DONE` set by FINAL, left by a step that takes NOP, cleared by a reset and by a step that takes LDH. -/
theorem witness_DoneSpansTheResult :
    (∃ t, step (busy 32#6) = .next t ∧ (busy 32#6).DONE = false ∧ t.DONE = true ∧ t.BUSY = false) ∧
    (∃ t, step (feed [] [.reset true] quiet) = .next t ∧ ¬ noResetNow (feed [] [.reset true] quiet)) ∧
    (∃ t, step (feed [0x3000000001#40] [] quiet) = .next t ∧
      wordTaken (feed [0x3000000001#40] [] quiet) t 0x3000000001#40 ∧ ∃ w, decode 0x3000000001#40 = .command (.ldh w)) ∧
    (∃ t, step (feed [0x0000000000#40] [] quiet) = .next t ∧ quiet.DONE = true ∧ t.port = []) ∧
    noResetNow (feed [0x0000000000#40] [] quiet) :=
  ⟨⟨_, rfl, by decide⟩, ⟨_, rfl, fun h => h true [] rfl⟩, ⟨_, rfl, ⟨rfl, by decide⟩, _, rfl⟩, ⟨_, rfl, by decide⟩,
    fun _ _ => nofun⟩
theorem witness_ResponsesComeFromReads : ∃ t, step (feed [0x7000000000#40] [] quiet) = .next t ∧
    wordTaken (feed [0x7000000000#40] [] quiet) t 0x7000000000#40 ∧ t.responses ≠ quiet.responses :=
  ⟨_, rfl, ⟨rfl, by decide⟩, by decide⟩
/-- From a state of the invariant in mid-transform, and from one right before FINAL. -/
theorem witness_StepKeepsInv : (∃ t, (busy 31#6).RND.toNat ≤ 32 ∧ step (busy 31#6) = .next t) ∧
    ∃ t, step (feed [0x4000000000#40] [] quiet) = .next t := ⟨⟨_, by decide, rfl⟩, ⟨_, rfl⟩⟩
theorem witness_StuckOnlyAboveThirtyTwo : noResetNow (busy 33#6) ∧ step (busy 33#6) = .fault .sequencerStuck :=
  ⟨fun _ _ => nofun, rfl⟩
theorem witness_ResetActionInAnyState : (feed [0x6000000000#40] [.reset false] (busy 10#6)).schedule =
    .reset false :: [] ∧ (feed [] [.reset true, .host] quiet).schedule = .reset true :: [.host] := by decide
theorem witness_QuiescentCoreWaits : quiet.BUSY = false ∧ quiet.port = [] ∧ noResetNow quiet :=
  ⟨by decide, by decide, fun _ _ => nofun⟩
theorem witness_EveryWordIsAccepted :
    (feed [0x6000000000#40, 0x4000000000#40] [.sequencer] (busy 3#6)).NoResetAhead := by
  simp [State.NoResetAhead, feed]
/-- Law (c): a key whose word 3 is 0 beside one whose word 3 is all ones; law (f): a set of permutations; law (h): a
sum one below the modulus. -/
theorem witness_AdderLaws :
    (∀ j : BitVec 3, readKey (key1.set 3 0#32) j = readKey (key1.set 3 0xFFFFFFFF#32) j ∨
      (readKey (key1.set 3 0#32) j = 0#32 ∧ readKey (key1.set 3 0xFFFFFFFF#32) j = 0xFFFFFFFF#32)) ∧
    sboxAff.IsPermutation ∧ (0xFFFFFFFE#32).toNat + (0#32).toNat < 0xFFFFFFFF := by decide
theorem witness_SubstitutionIsNibbleParallel : sboxId.IsPermutation ∧ sboxAff.IsPermutation := by decide
theorem witness_RotatorMovesEveryBit : (31 : Nat) < 32 ∧ (0 : Nat) < 32 := by decide
/-- Equal sums of unequal operands, and the corner operands. -/
theorem witness_RoundMixComposesTheStages : modadd 0x80000000#32 0x80000000#32 = modadd 1#32 0#32 ∧
    (0xFFFFFFFF#32 = 0#32 ∨ 0xFFFFFFFF#32 = (0xFFFFFFFF#32 : Word)) := by decide
theorem witness_SubkeySequenceShape : (23 : Nat) < 24 ∧ (7 : Nat) < 8 := by decide
theorem witness_KeyIndexCases : (0#5).toNat ≤ 23 ∧ (23#5).toNat ≤ 23 ∧ 24 ≤ (24#5).toNat ∧ 24 ≤ (31#5).toNat := by
  decide
theorem witness_EqualKeyWordsEqualModes : ∀ i j : BitVec 3, readKey State.reset.K i = readKey State.reset.K j := by
  decide
/-- A transform with a status poll and a load waiting behind it, both orders in the schedule. -/
theorem witness_HardwareComputesTransformBlock : quiet.BUSY = false ∧
    (feed [0x8000000000#40, 0x2000000000#40] [.host, .sequencer] quiet).NoResetAhead ∧
    (∃ s0, exec (startCommand .encrypt) quiet = .next s0) ∧ ∃ s0, exec (startCommand .decrypt) quiet = .next s0 :=
  ⟨by decide, by simp [State.NoResetAhead, feed], ⟨_, rfl⟩, ⟨_, rfl⟩⟩
theorem witness_RoundTrip : Mode.encrypt ≠ Mode.decrypt ∧
    (feed [encode .enc, encode .dec] [] quiet).BUSY = false ∧ (feed [encode .enc, encode .dec] [] quiet).NoResetAhead :=
  ⟨by decide, by decide, by simp [State.NoResetAhead, feed]⟩
theorem witness_LoadKeyLaysOutComponents :
    (feed (programWords (loadKeyProgram 1#64 2#64 3#64 4#64) ++ [rdsWord]) [.sequencer] quiet).BUSY = false ∧
    (feed (programWords (loadKeyProgram 1#64 2#64 3#64 4#64) ++ [rdsWord]) [.sequencer] quiet).NoResetAhead :=
  ⟨by decide, by simp [State.NoResetAhead, feed]⟩
theorem witness_ProgramAnswersTheTransform :
    (feed (programWords (transformProgram .decrypt 1#64 2#64 3#64 4#64 5#64)) [.host] quiet).BUSY = false ∧
    (feed (programWords (transformProgram .decrypt 1#64 2#64 3#64 4#64 5#64)) [.host] quiet).NoResetAhead ∧
    (feed (programWords (encryptProgram 5#64)) [] quiet).NoResetAhead :=
  ⟨by decide, by simp [State.NoResetAhead, feed], by simp [State.NoResetAhead, feed]⟩
/-- A status poll right before FINAL, taken before it or after it. -/
theorem witness_ScheduleShowsOnlyInStatusPolls :
    (∃ t, run 2 (feed [0x8000000000#40] [.host, .sequencer] (busy 32#6)) = .next t ∧ t.Finished) ∧
    ∃ t, run 2 (feed [0x8000000000#40] [.sequencer, .host] (busy 32#6)) = .next t ∧ t.Finished :=
  ⟨⟨_, rfl, by decide⟩, ⟨_, rfl, by decide⟩⟩

end Sys2Proof.Tests
end

section
/-! PROOFS. What a step keeps of the state, and who writes each register and flag (10_state.md). -/
namespace Sys2Proof.Machine

/-! ### The word a step takes -/

/-- A command accepted by a busy core is one it does not hold (R47). -/
theorem heldWhileBusy_of_accepted {s : State} {c : CmdWord} {i : Instr} (hd : decode c = .command i)
    (ha : accepts s c = true) (hb : s.BUSY = true) : heldWhileBusy i = false := by
  simpa [accepts_command hd, hb] using ha

/-- A step that leaves the port as it was takes no word. -/
theorem not_wordTaken_of_port_eq {s t : State} (hp : t.port = s.port) (c : CmdWord) : ¬ wordTaken s t c := by
  rintro ⟨h, -⟩
  exact List.cons_ne_self c s.port (by rw [← hp, ← h, hp])

/-- A step that is no reset performs the word it takes, and does nothing else (R9). -/
theorem step_performs_taken {s t : State} {c : CmdWord} (h : step s = .next t) (hn : noResetNow s)
    (ht : wordTaken s t c) : performWord c { afterTurn s with port := t.port } = .next t := by
  rcases stepWith_case h with ⟨w, sch, hs, -⟩ | ⟨-, hc⟩
  · exact absurd hs (hn w sch)
  cases hc with
  | @command c' rest i hp ha hd =>
    obtain ⟨rfl, -⟩ := List.cons.inj (ht.1.symm.trans hp)
    simp only [performWord, hd, commandEffect_port]
    exact exec_of_accepted hd ha rfl
  | @illegal c' rest why hp hb hd =>
    obtain ⟨rfl, -⟩ := List.cons.inj (ht.1.symm.trans hp)
    simp [performWord, hd]
  | round => exact absurd ht (not_wordTaken_of_port_eq rfl c)
  | final => exact absurd ht (not_wordTaken_of_port_eq rfl c)
  | idle => exact absurd ht (not_wordTaken_of_port_eq rfl c)

/-- A step that takes a command's word leaves the command's effect. -/
theorem step_of_taken_command {s t : State} {c : CmdWord} {i : Instr} (h : step s = .next t) (hn : noResetNow s)
    (ht : wordTaken s t c) (hd : decode c = .command i) :
    t = commandEffect { afterTurn s with port := t.port } i := by
  have hw := step_performs_taken h hn ht
  simp only [performWord, hd] at hw
  have he := exec_of_accepted (u := { afterTurn s with port := t.port }) hd ht.2 rfl
  exact Host.Outcome.next.inj (hw.symm.trans he)

/-- A step that takes an illegal word sets `ILL`, and nothing else (R110). -/
theorem step_of_taken_illegal {s t : State} {c : CmdWord} {why : IllegalClass} (h : step s = .next t)
    (hn : noResetNow s) (ht : wordTaken s t c) (hd : decode c = .illegal why) :
    t = raiseIllegalCommand { afterTurn s with port := t.port } := by
  have hw := step_performs_taken h hn ht
  simp only [performWord, hd] at hw
  exact (Host.Outcome.next.inj hw).symm

/-- A step with a reset at the head of the schedule is the reset action (R130). -/
theorem step_of_reset {s t : State} (h : step s = .next t) (hr : ¬ noResetNow s) :
    ∃ w, t = resetAction w (afterTurn s) := by
  rcases stepWith_case h with ⟨w, -, -, rfl⟩ | ⟨hn, -⟩
  · exact ⟨w, rfl⟩
  · exact absurd hn hr

/-! ### The invariant -/

/-- ROUND counts up by one: six bits hold every count it can reach (R81). -/
theorem roundStep_RND_toNat (sb : SBox) {s : State} (hr : s.RND.toNat < 32) :
    (roundStep sb s).RND.toNat = s.RND.toNat + 1 := by
  rw [roundStep_RND]
  bv_omega

theorem resetAction_inv (w : Bool) (s : State) : (resetAction w s).Inv := by
  simp [inv_iff]

/-- Every step of an agent keeps the invariant. -/
theorem agentsCase_inv {sb : SBox} {s t : State} (hs : s.Inv) (hc : AgentsCase sb s (.next t)) : t.Inv := by
  cases hc with
  | command hp ha hd =>
    exact commandEffect_inv (inv_congr hs rfl rfl rfl) fun hb => heldWhileBusy_of_accepted hd ha hb
  | illegal => exact inv_congr hs rfl rfl rfl
  | round hb hr =>
    refine inv_iff.2 ⟨?_, fun h => ?_, fun _ => hs.done_busy hb⟩
    · rw [roundStep_RND_toNat sb hr]; exact hr
    · rw [roundStep_BUSY, hb] at h; cases h
  | final => simp [inv_iff]
  | idle => exact hs

/-- Every step keeps the invariant, whatever the S-box contents and the free order. -/
theorem stepWith_inv {sb : SBox} {free : Nat → Bool} {s t : State} (hs : s.Inv)
    (h : stepWith sb free s = .next t) : t.Inv := by
  rcases stepWith_case h with ⟨w, -, -, rfl⟩ | ⟨-, hc⟩
  · exact resetAction_inv w _
  · exact agentsCase_inv (s := afterTurn s) (inv_congr hs rfl rfl rfl) hc

/-- Settles O33, by the cases of one step. -/
theorem stepKeepsInv : Obligations.StepKeepsInv := fun _ _ hs h => stepWith_inv hs h

/-! ### The key file (R13) -/

@[simp] theorem readKey_reset (j : BitVec 3) : readKey State.reset.K j = 0#32 := by
  revert j; decide

/-- The one command that changes a key word is LDK, and the word it changes is the one it names. -/
theorem commandEffect_key_changed {s : State} {i : Instr} {j : BitVec 3}
    (h : readKey (commandEffect s i).K j ≠ readKey s.K j) :
    ∃ idx w, i = .ldk idx w ∧ idx.toNat = j.toNat ∧ readKey (commandEffect s i).K j = w := by
  cases i with
  | ldk idx w =>
    by_cases h8 : idx.toNat < 8
    · simp only [commandEffect, keyIndex_of_lt h8, writeKey_K, readKey_set] at h ⊢
      by_cases hj : j = idx.setWidth 3
      · refine ⟨idx, w, rfl, ?_, if_pos hj⟩
        rw [hj, BitVec.toNat_setWidth, Nat.mod_eq_of_lt h8]
      · rw [if_neg hj] at h; exact absurd rfl h
    · simp [commandEffect, keyIndex_of_ge (Nat.le_of_not_lt h8)] at h
  | _ => exact absurd rfl h

/-- Who writes a key word: reset, or a step that takes an LDK of that word. -/
theorem step_key_changed {s t : State} {j : BitVec 3} (h : step s = .next t)
    (hj : readKey t.K j ≠ readKey s.K j) :
    (∃ w sch, s.schedule = .reset w :: sch ∧ readKey t.K j = 0#32) ∨
    (s.BUSY = false ∧ ∃ c idx w, wordTaken s t c ∧ decode c = .command (.ldk idx w) ∧
      idx.toNat = j.toNat ∧ readKey t.K j = w) := by
  rcases stepWith_case h with ⟨w, sch, hs, rfl⟩ | ⟨-, hc⟩
  · exact .inl ⟨w, sch, hs, by simp⟩
  cases hc with
  | @command c rest i hp ha hd =>
    obtain ⟨idx, w, rfl, hidx, hw⟩ := commandEffect_key_changed hj
    have hb : s.BUSY = false := by simpa [accepts_command hd, heldWhileBusy] using ha
    exact .inr ⟨hb, c, idx, w, ⟨by simpa using hp, ha⟩, hd, hidx, hw⟩
  | illegal => exact absurd rfl hj
  | round => exact absurd rfl hj
  | final => exact absurd rfl hj
  | idle => exact absurd rfl hj

/-- No command reads the key file: under another one its effect differs in the key file only. -/
theorem commandEffect_other_key (s : State) (K' : Vector Word 8) (i : Instr) :
    commandEffect { s with K := K' } i =
      { commandEffect s i with K := (commandEffect { s with K := K' } i).K } := by
  cases i with
  | ldk idx w => simp only [commandEffect]; cases keyIndex idx <;> rfl
  | _ => rfl

/-- Neither does an accepted word, legal or not. -/
theorem performWord_other_key {c : CmdWord} {s t t' : State} {K' : Vector Word 8}
    (h : performWord c s = .next t) (h' : performWord c { s with K := K' } = .next t') :
    t' = { t with K := t'.K } := by
  unfold performWord at h h'
  cases hd : decode c with
  | command i =>
    simp only [hd, exec_eq, Host.Outcome.next.injEq] at h h'
    subst h h'
    by_cases hheld : (s.BUSY && heldWhileBusy i) = true
    · simp [hheld]
    · simp only [hheld]
      exact commandEffect_other_key s K' i
  | illegal why =>
    simp only [hd, Host.Outcome.next.injEq] at h h'
    subst h h'
    rfl

theorem hostStep_other_key {s t t' : State} {K' : Vector Word 8} (h : hostStep s = .next t)
    (h' : hostStep { s with K := K' } = .next t') : t' = { t with K := t'.K } := by
  unfold hostStep at h h'
  cases hp : s.port with
  | nil =>
    simp only [hp, Host.Outcome.next.injEq] at h h'
    subst h h'
    simp [hp]
  | cons c rest =>
    simp only [hp] at h h'
    exact performWord_other_key h h'

/-- `t` and `t'` are what one step leaves of `s` and of `s` under the key file `K'`, if only ROUND reads the key:
they differ in the key file only, or the step was ROUND and they differ in `B` too (R13). -/
def KeyReadByRoundOnly (s : State) (K' : Vector Word 8) (t t' : State) : Prop :=
  t' = { t with K := t'.K } ∨
    (s.BUSY = true ∧ t.RND.toNat = s.RND.toNat + 1 ∧ t.port = s.port ∧ t' = { t with K := K', B := t'.B })

/-- The responses never depend on the key. -/
theorem KeyReadByRoundOnly.responses_eq {s t t' : State} {K' : Vector Word 8} (h : KeyReadByRoundOnly s K' t t') :
    t'.responses = t.responses := by
  rcases h with h | ⟨-, -, -, h⟩ <;> rw [h]

/-- The sequencer reads the key in ROUND, and FINAL does not read it. -/
theorem sequencerStep_other_key (sb : SBox) {s : State} (K' : Vector Word 8) (hb : s.BUSY = true) :
    KeyReadByRoundOnly s K' (sequencerStep sb s) (sequencerStep sb { s with K := K' }) := by
  by_cases hr : s.RND.toNat < 32
  · simp only [sequencerStep, hr, if_true]
    exact .inr ⟨hb, roundStep_RND_toNat sb hr, rfl, rfl⟩
  · simp only [sequencerStep, hr, if_false]
    exact .inl rfl

/-- Which agent moves does not depend on the key, and only ROUND reads it. -/
theorem agentsStep_other_key {sb : SBox} {hf : Bool} {s t t' : State} {K' : Vector Word 8}
    (h : agentsStep sb hf s = .next t) (h' : agentsStep sb hf { s with K := K' } = .next t') :
    KeyReadByRoundOnly s K' t t' := by
  have hhost : hostEnabled { s with K := K' } = hostEnabled s := rfl
  have hseq : sequencerEnabled { s with K := K' } = sequencerEnabled s := rfl
  unfold agentsStep at h h'
  rw [hhost, hseq] at h'
  by_cases hmove : (hostEnabled s && (!sequencerEnabled s || hf)) = true
  · rw [if_pos hmove] at h h'
    exact .inl (hostStep_other_key h h')
  rw [if_neg hmove] at h h'
  by_cases hq : sequencerEnabled s = true
  · rw [if_pos hq, Host.Outcome.next.injEq] at h h'
    subst h h'
    exact sequencerStep_other_key sb K' ((sequencerEnabled_iff s).1 hq).1
  rw [if_neg hq] at h h'
  by_cases hb : s.BUSY = true
  · rw [if_pos hb] at h; cases h
  · simp only [if_neg hb, Host.Outcome.next.injEq] at h h'
    subst h h'
    exact .inl rfl

/-- So it is for every step, resets included. -/
theorem step_other_key {s t t' : State} {K' : Vector Word 8} (h : step s = .next t)
    (h' : step { s with K := K' } = .next t') : KeyReadByRoundOnly s K' t t' := by
  by_cases hn : noResetNow s
  · rw [step, stepWith_agents hn] at h
    rw [step, stepWith_agents (s := { s with K := K' }) hn] at h'
    exact agentsStep_other_key (s := afterTurn s) h h'
  · simp only [noResetNow, not_forall, not_not] at hn
    obtain ⟨w, sch, hs⟩ := hn
    rw [step, stepWith_reset hs, Host.Outcome.next.injEq] at h
    rw [step, stepWith_reset (s := { s with K := K' }) hs, Host.Outcome.next.injEq] at h'
    subst h h'
    exact .inl rfl

/-- Settles O27: the writers by the cases of one step, the readers by running the step under two key files. -/
theorem keyFileAccess : Obligations.KeyFileAccess :=
  ⟨fun _ _ _ => step_key_changed,
    fun _ _ _ _ h h' => ⟨(step_other_key h h').responses_eq, step_other_key h h'⟩⟩

/-! ### `ILL` (R18) -/

/-- A step that is no reset keeps `ILL`, or takes an illegal word and sets it. -/
theorem step_ILL_cases {s t : State} (h : step s = .next t) (hn : noResetNow s) :
    t.ILL = s.ILL ∨ (t.ILL = true ∧ ∃ c why, wordTaken s t c ∧ decode c = .illegal why) := by
  rcases stepWith_case h with ⟨w, sch, hs, -⟩ | ⟨-, hc⟩
  · exact absurd hs (hn w sch)
  cases hc with
  | command hp ha hd => exact .inl (commandEffect_ILL _ (wellFormed_of_decode hd))
  | @illegal c rest why hp hb hd =>
    exact .inr ⟨rfl, c, why, ⟨hp, (accepts_illegal hd (afterTurn s)).trans (by rw [hb]; rfl)⟩, hd⟩
  | round => exact .inl rfl
  | final => exact .inl rfl
  | idle => exact .inl rfl

/-- Settles O28: a step keeps `ILL` or takes an illegal word, and only the reset action clears it. -/
theorem illIsStickyUntilReset : Obligations.IllIsStickyUntilReset := by
  intro s t h
  refine ⟨fun hn => ⟨fun hill => ?_, ?_⟩, fun hr => ?_⟩
  · rcases step_ILL_cases h hn with hkeep | ⟨-, htaken⟩
    · exact .inl (hkeep ▸ hill)
    · exact .inr htaken
  · rintro (hill | ⟨c, why, ht, hd⟩)
    · rcases step_ILL_cases h hn with hkeep | ⟨hset, -⟩
      · rw [hkeep, hill]
      · exact hset
    · rw [step_of_taken_illegal h hn ht hd, raiseIllegalCommand_ILL]
  · obtain ⟨w, rfl⟩ := step_of_reset h hr
    rfl

/-! ### `DONE` and the block (R17) -/

/-- The commands that end a result: the loads of the block and the starts of a transform. -/
def EndsResult (i : Instr) : Prop := (∃ w, i = .ldl w) ∨ (∃ w, i = .ldh w) ∨ ∃ m, i = startCommand m

theorem commandEffect_DONE_of_ends (s : State) {i : Instr} (h : EndsResult i) : (commandEffect s i).DONE = false := by
  rcases h with ⟨w, rfl⟩ | ⟨w, rfl⟩ | ⟨m, rfl⟩
  · rfl
  · rfl
  · cases m <;> rfl

/-- Every other command keeps `DONE` and the block held. -/
theorem commandEffect_result_kept (s : State) {i : Instr} (h : ¬ EndsResult i) :
    (commandEffect s i).DONE = s.DONE ∧ (commandEffect s i).A = s.A ∧ (commandEffect s i).B = s.B := by
  cases i with
  | ldk idx w => cases hk : keyIndex idx <;> simp [commandEffect, hk]
  | ldl w => exact absurd (.inl ⟨w, rfl⟩) h
  | ldh w => exact absurd (.inr (.inl ⟨w, rfl⟩)) h
  | enc => exact absurd (.inr (.inr ⟨.encrypt, rfl⟩)) h
  | dec => exact absurd (.inr (.inr ⟨.decrypt, rfl⟩)) h
  | _ => exact ⟨rfl, rfl, rfl⟩

/-- So no command sets `DONE`. -/
theorem DONE_of_commandEffect_DONE {s : State} {i : Instr} (h : (commandEffect s i).DONE = true) :
    s.DONE = true := by
  by_cases hi : EndsResult i
  · rw [commandEffect_DONE_of_ends s hi] at h; cases h
  · rwa [(commandEffect_result_kept s hi).1] at h

/-- No command clears `BUSY` (R16). -/
theorem quiescent_of_commandEffect_quiescent {s : State} {i : Instr} (h : (commandEffect s i).BUSY = false) :
    s.BUSY = false := by
  by_cases hi : ∃ m, i = startCommand m
  · obtain ⟨m, rfl⟩ := hi
    cases m <;> cases h
  · rwa [(commandEffect_sequencer s (not_exists.1 hi)).1] at h

/-- `DONE` goes to 1 only by FINAL. -/
theorem step_sets_DONE {s t : State} (h : step s = .next t) (hs : s.DONE = false) (ht : t.DONE = true) :
    s.BUSY = true ∧ s.RND = 32#6 ∧ t.A = s.B ∧ t.B = s.A := by
  rcases stepWith_case h with ⟨w, sch, -, rfl⟩ | ⟨-, hc⟩
  · simp at ht
  have hclear : s.DONE ≠ true := by simp [hs]
  cases hc with
  | command => exact absurd (DONE_of_commandEffect_DONE ht) hclear
  | illegal => exact absurd ht hclear
  | round => exact absurd ht hclear
  | final hb hr => exact ⟨hb, BitVec.eq_of_toNat_eq hr, rfl, rfl⟩
  | idle => exact absurd ht hclear

/-- Without a reset `BUSY` falls only by FINAL, which sets `DONE`. -/
theorem step_clears_BUSY {s t : State} (h : step s = .next t) (hn : noResetNow s) (hs : s.BUSY = true)
    (ht : t.BUSY = false) : t.DONE = true := by
  rcases stepWith_case h with ⟨w, sch, hsch, -⟩ | ⟨-, hc⟩
  · exact absurd hsch (hn w sch)
  have hbusy : s.BUSY ≠ false := by simp [hs]
  cases hc with
  | command => exact absurd (quiescent_of_commandEffect_quiescent ht) hbusy
  | illegal => exact absurd ht hbusy
  | round => exact absurd ht hbusy
  | final => rfl
  | idle => exact absurd ht hbusy

/-- A result stands until a reset or a command that ends it. -/
theorem step_keeps_result {s t : State} (hi : s.Inv) (h : step s = .next t) (hn : noResetNow s)
    (hs : s.DONE = true) (hk : ∀ c i, wordTaken s t c → decode c = .command i → ¬ EndsResult i) :
    t.DONE = true ∧ t.A = s.A ∧ t.B = s.B := by
  have hquiet : s.BUSY ≠ true := fun hb => by simp [hi.done_busy hb] at hs
  rcases stepWith_case h with ⟨w, sch, hsch, -⟩ | ⟨-, hc⟩
  · exact absurd hsch (hn w sch)
  cases hc with
  | @command c rest i hp ha hd =>
    obtain ⟨hD, hA, hB⟩ := commandEffect_result_kept { afterTurn s with port := rest }
      (hk c i ⟨by simpa using hp, ha⟩ hd)
    exact ⟨hD.trans hs, hA, hB⟩
  | illegal => exact ⟨hs, rfl, rfl⟩
  | round hb => exact absurd hb hquiet
  | final hb => exact absurd hb hquiet
  | idle => exact ⟨hs, rfl, rfl⟩

/-- A step that takes a command that ends the result leaves `DONE` 0. -/
theorem step_ends_result {s t : State} {c : CmdWord} {i : Instr} (h : step s = .next t) (hn : noResetNow s)
    (ht : wordTaken s t c) (hd : decode c = .command i) (hi : EndsResult i) : t.DONE = false := by
  rw [step_of_taken_command h hn ht hd]
  exact commandEffect_DONE_of_ends _ hi

/-- Settles O30, clause by clause, from what sets, keeps and clears `DONE`. -/
theorem doneSpansTheResult : Obligations.DoneSpansTheResult := by
  intro s t hi h
  refine ⟨step_sets_DONE h, step_clears_BUSY h, fun hs hn hk => ?_, fun hr => ?_, fun hn htaken => ?_⟩
  · refine step_keeps_result hi h hn hs fun c i ht hd => ?_
    rintro (⟨w, rfl⟩ | ⟨w, rfl⟩ | ⟨m, rfl⟩)
    · exact (hk c ht w .encrypt).1 hd
    · exact (hk c ht w .encrypt).2.1 hd
    · exact (hk c ht 0#32 m).2.2 hd
  · obtain ⟨w, rfl⟩ := step_of_reset h hr
    rfl
  · obtain ⟨c, ht, ⟨w, hd⟩ | ⟨w, hd⟩ | ⟨m, hd⟩⟩ := htaken
    · exact step_ends_result h hn ht hd (.inl ⟨w, rfl⟩)
    · exact step_ends_result h hn ht hd (.inr (.inl ⟨w, rfl⟩))
    · exact step_ends_result h hn ht hd (.inr (.inr ⟨m, rfl⟩))

/-! ### `STATUS` and reset (R19, R22) -/

theorem Mode.bit_iff (m : Mode) : m.bit = true ↔ m = .decrypt := by
  cases m <;> simp [Mode.bit]

theorem statusWord_reset : statusWord State.reset = 0#32 := by decide

/-- Settles O12, from the bits of `STATUS` one at a time. -/
theorem statusIsTheFlagView : Obligations.StatusIsTheFlagView := by
  intro s
  refine ⟨statusWord_bit0 s, statusWord_bit1 s, statusWord_bit2 s, ?_, statusWord_high s, fun hi => ?_,
    statusWord_reset, exec_of_not_held (.inr rfl)⟩
  · rw [statusWord_bit3, Mode.bit_iff]
  · rw [statusWord_bit0, statusWord_bit1]
    cases hb : s.BUSY with
    | false => rfl
    | true => exact hi.done_busy hb

/-- Settles O36: R22's table, read off the reset state. -/
theorem resetLeavesZero : Obligations.ResetLeavesZero :=
  ⟨readKey_reset, rfl, rfl, rfl, rfl, rfl, rfl, rfl, statusWord_reset, rfl⟩

end Sys2Proof.Machine
end

section
/-! PROOFS. The response stream, the key file and the block as the host lays them out (20_memory.md). -/
namespace Sys2Proof.Machine

/-! ### The response stream (R39) -/

/-- A command's answer is read from the registers and flags, never from the environment's script. -/
theorem answerOf_script (s : State) (p : List CmdWord) (i : Instr) :
    answerOf { afterTurn s with port := p } i = answerOf s i := by
  cases i <;> rfl

/-- The three reads are the commands that answer anything. -/
theorem isRead_of_answerOf_ne_nil {s : State} {i : Instr} (h : answerOf s i ≠ []) :
    i = .rdl ∨ i = .rdh ∨ i = .rds := by
  cases i with
  | rdl => exact .inl rfl
  | rdh => exact .inr (.inl rfl)
  | rds => exact .inr (.inr rfl)
  | _ => exact absurd rfl h

/-- A step that takes a command's word appends the command's answer. -/
theorem step_responses_of_taken {s t : State} {c : CmdWord} {i : Instr} (h : step s = .next t) (hn : noResetNow s)
    (ht : wordTaken s t c) (hd : decode c = .command i) : t.responses = s.responses ++ answerOf s i := by
  have he := congrArg State.responses (step_of_taken_command h hn ht hd)
  rwa [commandEffect_responses, answerOf_script] at he

/-- A step that changes the response stream is no reset and takes a command's word. -/
theorem step_takes_command_of_responses_ne {s t : State} (h : step s = .next t) (hne : t.responses ≠ s.responses) :
    noResetNow s ∧ ∃ c i, wordTaken s t c ∧ decode c = .command i := by
  rcases stepWith_case h with ⟨w, sch, -, rfl⟩ | ⟨hn, hc⟩
  · exact absurd rfl hne
  cases hc with
  | @command c rest i hp ha hd => exact ⟨hn, c, i, ⟨by simpa using hp, ha⟩, hd⟩
  | illegal => exact absurd rfl hne
  | round => exact absurd rfl hne
  | final => exact absurd rfl hne
  | idle => exact absurd rfl hne

/-- Settles O31: a taken command appends its answer, and only the three reads have one. -/
theorem responsesComeFromReads : Obligations.ResponsesComeFromReads := by
  intro s t h
  refine ⟨fun c i ht hd hn => step_responses_of_taken h hn ht hd, fun hne => ?_⟩
  obtain ⟨hn, c, i, ht, hd⟩ := step_takes_command_of_responses_ne h hne
  have happend := step_responses_of_taken h hn ht hd
  have hanswer : answerOf s i ≠ [] := fun hnil => hne (by rw [happend, hnil, List.append_nil])
  exact ⟨c, i, ht, hd, isRead_of_answerOf_ne_nil hanswer, happend⟩

/-! ### A program on a quiescent core (R54) -/

/-- The word of a well-formed command decodes to that command (R48, R50). -/
theorem decode_encode {i : Instr} (h : i.wellFormed = true) : decode (encode i) = .command i := by
  cases i with
  | ldk idx imm =>
    have h8 : idx.toNat < 8 := by simpa [Instr.wellFormed] using h
    simp [decode_eq_decodeFields, encode, decodeFields, h8]
  | ldl imm => simp [decode_eq_decodeFields, encode, decodeFields]
  | ldh imm => simp [decode_eq_decodeFields, encode, decodeFields]
  | _ => rfl

/-- The core stays quiescent while it performs `i`: a well-formed command that starts no transform. -/
def StaysQuiescent (i : Instr) : Prop := i.wellFormed = true ∧ ∀ m, i ≠ startCommand m

/-- A quiescent core performs such commands one a step, in the order the host presents them. -/
theorem run_program {p : List Instr} {s : State} {rest : List CmdWord} (hp : ∀ i ∈ p, StaysQuiescent i)
    (hb : s.BUSY = false) (hn : s.NoResetAhead) (hport : s.port = programWords p ++ rest) :
    run p.length s =
      .next (p.foldl commandEffect { s with port := rest, schedule := s.schedule.drop p.length }) := by
  induction p generalizing s with
  | nil =>
    obtain rfl : s.port = rest := hport
    rfl
  | cons i p ih =>
    obtain ⟨⟨hwf, hstart⟩, hp⟩ := List.forall_mem_cons.1 hp
    have hstep := step_quiescent hb (noResetNow_of_ahead hn) hport (decode_encode hwf)
    have hquiet := (commandEffect_sequencer
      { s with port := programWords p ++ rest, schedule := s.schedule.tail } hstart).1
    have hrest := ih hp (hquiet.trans hb) (noResetAhead_step hn hstep) (commandEffect_port _ i)
    refine (runWith_step hstep p.length).trans (hrest.trans ?_)
    -- the script is no operand, so it may be shortened before the first command or after it
    simp only [List.foldl_cons, commandEffect_script, List.drop_tail, List.length_cons]

/-! ### The key registers (R34) -/

/-- LDK of a key register writes that register. -/
theorem commandEffect_ldk_of_lt {idx : Nibble} (h : idx.toNat < 8) (w : Word) (s : State) :
    commandEffect s (.ldk idx w) = writeKey (idx.setWidth 3) w s := by
  simp only [commandEffect, keyIndex_of_lt h]

/-- LOADKEY holds eight LDK of key registers, and nothing else. -/
theorem loadKeyProgram_staysQuiescent (c0 c1 c2 c3 : Block) :
    ∀ i ∈ loadKeyProgram c0 c1 c2 c3, StaysQuiescent i := by
  have hldk : ∀ (idx : Nibble) (w : Word), idx.toNat < 8 → StaysQuiescent (.ldk idx w) :=
    fun idx w h => ⟨by simpa [Instr.wellFormed] using h, fun m => by cases m <;> simp [startCommand]⟩
  simp [loadKeyProgram, hldk]

/-- Its eight writes cover the whole key file, so nothing of the old one is left. -/
theorem loadKeyProgram_effect (c0 c1 c2 c3 : Block) (s : State) :
    (loadKeyProgram c0 c1 c2 c3).foldl commandEffect s = { s with K := keyOfComponents c0 c1 c2 c3 } := by
  simp only [loadKeyProgram, List.foldl_cons, List.foldl_nil, commandEffect_ldk_of_lt, BitVec.reduceToNat, Nat.reduceLT]
  apply State.ext
  case K =>
    apply Vector.ext
    intro i hi
    simp only [writeKey_K]
    interval_cases i <;> simp [keyOfComponents]
  all_goals rfl

/-- Settles O52: the eight words run in eight steps, and together they write the key file. -/
theorem loadKeyLaysOutComponents : Obligations.LoadKeyLaysOutComponents := by
  intro s c0 c1 c2 c3 rest hb hn hport
  have hrun := run_program (loadKeyProgram_staysQuiescent c0 c1 c2 c3) hb hn hport
  rw [loadKeyProgram_effect] at hrun
  exact hrun

/-! ### The bytes of a block (R33, R35) -/

theorem lo32_toNat (x : Block) : (lo32 x).toNat = x.toNat % 2 ^ 32 := by
  simp [lo32]

theorem hi32_toNat (x : Block) : (hi32 x).toNat = x.toNat / 2 ^ 32 := by
  rw [hi32, BitVec.extractLsb'_toNat, Nat.shiftRight_eq_div_pow]
  exact Nat.mod_eq_of_lt (by omega)

/-- Bytes after the first `xs.length` count from that position on. -/
theorem bytesValue_append (xs ys : List Byte) :
    bytesValue (xs ++ ys) = bytesValue xs + 256 ^ xs.length * bytesValue ys := by
  induction xs with
  | nil => simp [bytesValue]
  | cons x xs ih =>
    simp only [List.cons_append, bytesValue, ih, List.length_cons]
    ring

theorem bytesValue_lt (ys : List Byte) : bytesValue ys < 256 ^ ys.length := by
  induction ys with
  | nil => simp [bytesValue]
  | cons y ys ih =>
    have := y.isLt
    simp only [bytesValue, List.length_cons, pow_succ]
    omega

theorem bytesValue_replicate_zero (n : Nat) : bytesValue (List.replicate n 0#8) = 0 := by
  induction n with
  | zero => rfl
  | succ n ih => simp [List.replicate_succ, bytesValue, ih]

/-- Eight bytes fit a block. -/
theorem packBlock_toNat {ys : List Byte} (h : ys.length ≤ 8) : (packBlock ys).toNat = bytesValue ys := by
  rw [packBlock, BitVec.toNat_ofNat, Nat.mod_eq_of_lt]
  calc bytesValue ys < 256 ^ ys.length := bytesValue_lt ys
    _ ≤ 256 ^ 8 := Nat.pow_le_pow_right (by decide) h

/-- A byte put below a number. -/
theorem append_byte_toNat {n : Nat} (x : BitVec n) (y : Byte) : (x ++ y).toNat = y.toNat + 256 * x.toNat := by
  rw [BitVec.toNat_append, ← Nat.shiftLeft_add_eq_or_of_lt y.isLt, Nat.shiftLeft_eq]
  omega

/-- Four bytes written as one word, the first in the least significant place. -/
theorem append_bytes_toNat (y0 y1 y2 y3 : Byte) :
    (y3 ++ y2 ++ y1 ++ y0 : BitVec 32).toNat = bytesValue [y0, y1, y2, y3] := by
  simp only [append_byte_toNat, bytesValue, Nat.mul_zero, Nat.add_zero]

/-- The halves of a block of eight bytes are its first four and its last four. -/
theorem packBlock_halves {xs ys : List Byte} (hx : xs.length = 4) (hy : ys.length = 4) :
    (lo32 (packBlock (xs ++ ys))).toNat = bytesValue xs ∧ (hi32 (packBlock (xs ++ ys))).toNat = bytesValue ys := by
  have hlt := bytesValue_lt xs
  rw [lo32_toNat, hi32_toNat, packBlock_toNat (by simp [hx, hy]), bytesValue_append]
  rw [hx] at hlt ⊢
  omega

/-- Settles O54, from the value of a list of bytes. -/
theorem blockIsItsBytesLittleEndian : Obligations.BlockIsItsBytesLittleEndian := by
  refine ⟨fun y0 y1 y2 y3 y4 y5 y6 y7 => ?_, fun ys n => ?_⟩
  · obtain ⟨hlo, hhi⟩ := packBlock_halves (xs := [y0, y1, y2, y3]) (ys := [y4, y5, y6, y7]) rfl rfl
    refine ⟨?_, BitVec.eq_of_toNat_eq ?_, BitVec.eq_of_toNat_eq ?_⟩
    · rw [packBlock_toNat (by simp)]
      simp only [bytesValue]
      ring
    · exact hlo.trans (append_bytes_toNat y0 y1 y2 y3).symm
    · exact hhi.trans (append_bytes_toNat y4 y5 y6 y7).symm
  · simp only [packBlock, bytesValue_append, bytesValue_replicate_zero, Nat.mul_zero, Nat.add_zero]

end Sys2Proof.Machine
end

section
/-! PROOFS. The rows of the opcode map, the illegal words and the busy hold (30_encoding.md). -/
namespace Sys2Proof

/-! ### One row per opcode (R48, R49) -/

theorem opField_and (c d : CmdWord) : opField (c &&& d) = opField c &&& opField d :=
  BitVec.extractLsb'_and

/-- Every row fixes the whole opcode field, so a word it matches has its opcode. -/
theorem opField_of_hit {r : Row} {c : CmdWord} (hr : r ∈ opcodeMap) (h : r.hit c = true) :
    opField c = opField r.pattern := by
  have hmask : ∀ r ∈ opcodeMap, opField r.mask = 0xF#4 := by decide
  rw [← beq_iff_eq.1 h, opField_and, hmask r hr, and_allOnes_nibble]

/-- No two rows have the same opcode (R49). -/
theorem opcodes_nodup : (opcodeMap.map fun r => opField r.pattern).Nodup := by decide

/-- The rows a word matches all have the word's opcode, so there is one at most. -/
theorem hits_length_le_one (c : CmdWord) : (opcodeMap.filter fun r => r.hit c).length ≤ 1 := by
  have hnodup := opcodes_nodup.sublist ((List.filter_sublist (p := fun r => r.hit c)).map _)
  have hsame : ((opcodeMap.filter fun r => r.hit c).map fun r => opField r.pattern) =
      List.replicate (opcodeMap.filter fun r => r.hit c).length (opField c) := by
    refine List.eq_replicate_iff.2 ⟨List.length_map _, List.forall_mem_map.2 fun r hr => ?_⟩
    obtain ⟨hmem, hhit⟩ := List.mem_filter.1 hr
    exact (opField_of_hit hmem hhit).symm
  exact List.nodup_replicate.1 (hsame ▸ hnodup)

/-- A word matches no row as soon as it does not match the row of its opcode. -/
theorem no_row_iff_of_opcode {r : Row} {c : CmdWord} (hr : r ∈ opcodeMap) (hop : opField r.pattern = opField c) :
    (∀ r' ∈ opcodeMap, r'.hit c = false) ↔ ¬ r.hit c = true := by
  refine ⟨fun h => by simp [h r hr], fun h r' hr' => Bool.eq_false_iff.2 fun hhit => h ?_⟩
  have hsame : r' = r :=
    List.inj_on_of_nodup_map opcodes_nodup hr' hr ((opField_of_hit hr' hhit).symm.trans hop.symm)
  exact hsame ▸ hhit

/-- Illegal is what no row matches, whatever the class (R51). -/
theorem no_row_iff_illegal (c : CmdWord) :
    (∀ r ∈ opcodeMap, r.hit c = false) ↔ ∃ why, decode c = .illegal why := by
  simp [decode_illegal_iff]

/-- Settles O3: a row fixes the opcode, and each opcode has one row. -/
theorem decodeFollowsTheRows : Obligations.DecodeFollowsTheRows :=
  ⟨hits_length_le_one, fun c => (no_row_iff_illegal c).symm,
    fun _ _ h => ⟨(decode_command_cases h).1, Machine.wellFormed_of_decode h⟩⟩

/-! ### The four classes (R51) -/

/-- The opcodes of each class of R51. -/
def IllegalClass.HasOpcode (op : Nibble) : IllegalClass → Prop
  | .reservedOp => 9 ≤ op.toNat
  | .keyIndexOutOfRange => op = 0x1#4
  | .loadIndexNotZero => op = 0x2#4 ∨ op = 0x3#4
  | .fixedFieldNotZero => op = 0x0#4 ∨ (4 ≤ op.toNat ∧ op.toNat ≤ 8)

/-- The class under whose name a word is rejected is a matter of its opcode. -/
theorem illegalClass_iff (c : CmdWord) (why : IllegalClass) :
    illegalClass c = why ↔ why.HasOpcode (opField c) := by
  unfold illegalClass
  generalize opField c = op
  revert op
  cases why <;> simp only [IllegalClass.HasOpcode] <;> decide

/-- A reserved opcode has no row. -/
theorem no_row_of_reservedOp {c : CmdWord} (h : 9 ≤ (opField c).toNat) : ∀ r ∈ opcodeMap, r.hit c = false := by
  have hsmall : ∀ r ∈ opcodeMap, (opField r.pattern).toNat < 9 := by decide
  intro r hr
  refine Bool.eq_false_iff.2 fun hhit => ?_
  have := hsmall r hr
  rw [← opField_of_hit hr hhit] at this
  omega

/-- A word with LDK's opcode matches no row when its index names no key register. -/
theorem no_row_iff_of_ldk {c : CmdWord} (h : opField c = 0x1#4) :
    (∀ r ∈ opcodeMap, r.hit c = false) ↔ 8 ≤ (idxField c).toNat := by
  rw [no_row_iff_of_opcode (r := rowLdk) (by decide) (by rw [h]; decide), rowLdk_hit]
  simp [h]

/-- A word with a load's opcode matches no row when its index is not zero. -/
theorem no_row_iff_of_load {c : CmdWord} (h : opField c = 0x2#4 ∨ opField c = 0x3#4) :
    (∀ r ∈ opcodeMap, r.hit c = false) ↔ idxField c ≠ 0#4 := by
  have hrow : ∀ op : Nibble, op = 0x2#4 ∨ op = 0x3#4 →
      ∃ r ∈ opcodeMap, r.pattern = assemble op 0#4 0#32 ∧ r.mask = assemble 0xF#4 0xF#4 0#32 := by decide
  obtain ⟨r, hr, hp, hm⟩ := hrow _ h
  rw [no_row_iff_of_opcode hr (by rw [hp, opField_assemble]), loadRow_hit hp hm]
  simp

/-- A word with the opcode of a command without operand matches no row when any other bit is set. -/
theorem no_row_iff_of_fixed {c : CmdWord}
    (h : opField c = 0x0#4 ∨ (4 ≤ (opField c).toNat ∧ (opField c).toNat ≤ 8)) :
    (∀ r ∈ opcodeMap, r.hit c = false) ↔ idxField c ≠ 0#4 ∨ immField c ≠ 0#32 := by
  have hrow : ∀ op : Nibble, op = 0x0#4 ∨ (4 ≤ op.toNat ∧ op.toNat ≤ 8) →
      ∃ r ∈ opcodeMap, r.pattern = assemble op 0#4 0#32 ∧ r.mask = assemble 0xF#4 0xF#4 0xFFFFFFFF#32 := by decide
  obtain ⟨r, hr, hp, hm⟩ := hrow _ h
  rw [no_row_iff_of_opcode hr (by rw [hp, opField_assemble]), fixedRow_hit hp hm]
  simp [imp_iff_not_or]

/-- A word is rejected under a class's name exactly when its opcode is the class's and the row of that opcode, if
there is one, does not match. -/
theorem decode_illegal_iff_of_opcode {c : CmdWord} {why : IllegalClass} {q : Prop}
    (hrow : why.HasOpcode (opField c) → ((∀ r ∈ opcodeMap, r.hit c = false) ↔ q)) :
    decode c = .illegal why ↔ why.HasOpcode (opField c) ∧ q := by
  rw [decode_illegal_iff, illegalClass_iff, and_comm]
  exact and_congr_right hrow

/-- An illegal word that is performed sets `ILL` (R110). -/
theorem performWord_illegal {c : CmdWord} {why : IllegalClass} (h : decode c = .illegal why) (s : Machine.State) :
    Machine.performWord c s = .next (Machine.raiseIllegalCommand s) := by
  simp only [Machine.performWord, h]

/-- Settles O4, class by class: the opcode names the class, and the row of that opcode says which words are in it. -/
theorem illegalWordsExactly : Obligations.IllegalWordsExactly := by
  refine ⟨no_row_iff_illegal, fun c => ?_, fun c => ?_, fun c => ?_, fun c => ?_,
    fun c why s h => performWord_illegal h s⟩
  · have hreserved := decode_illegal_iff_of_opcode (c := c) (why := .reservedOp) (q := True) fun h =>
      iff_true_intro (no_row_of_reservedOp h)
    exact hreserved.trans (and_iff_left trivial)
  · exact decode_illegal_iff_of_opcode no_row_iff_of_ldk
  · exact decode_illegal_iff_of_opcode no_row_iff_of_load
  · exact decode_illegal_iff_of_opcode no_row_iff_of_fixed

end Sys2Proof

namespace Sys2Proof.Machine

/-! ### The busy hold (R47) -/

/-- The acceptance condition, word by word. -/
theorem accepts_iff (s : State) (c : CmdWord) :
    accepts s c = true ↔ s.BUSY = false ∨ c = nopWord ∨ c = rdsWord := by
  simp [accepts, or_assoc]

/-- A word is held by a busy core only. -/
theorem busy_of_held {s : State} {c : CmdWord} (h : accepts s c = false) : s.BUSY = true := by
  by_contra hb
  simp [(accepts_iff s c).2 (.inl (Bool.eq_false_iff.2 hb))] at h

/-- With a held word presented, a step that is no reset is ROUND or FINAL. -/
theorem step_of_held {s t : State} {c : CmdWord} {rest : List CmdWord} (h : step s = .next t) (hn : noResetNow s)
    (hp : s.port = c :: rest) (ha : accepts s c = false) :
    t = roundStep Config.SBOX (afterTurn s) ∨ (s.RND = 32#6 ∧ t = finalStep (afterTurn s)) := by
  have hbusy : s.BUSY ≠ false := by simp [busy_of_held ha]
  rcases stepWith_case h with ⟨w, sch, hs, -⟩ | ⟨-, hc⟩
  · exact absurd hs (hn w sch)
  cases hc with
  | @command c' rest' i hp' ha' hd =>
    obtain ⟨rfl, -⟩ := List.cons.inj (hp.symm.trans hp')
    exact absurd ha' (by simp [ha])
  | illegal hp' hb hd => exact absurd hb hbusy
  | round => exact .inl rfl
  | final hb hr => exact .inr ⟨BitVec.eq_of_toNat_eq hr, rfl⟩
  | idle hb hp' => exact absurd hb hbusy

/-- ROUND leaves the core busy, so it lets no held word in. -/
theorem held_after_round {s : State} {c : CmdWord} (sb : SBox) (h : accepts s c = false) :
    accepts (roundStep sb (afterTurn s)) c = false := h

/-- Settles O26: the step beside a held word is the sequencer's, and only FINAL ends the hold. -/
theorem heldWordStaysPresented : Obligations.HeldWordStaysPresented := by
  refine ⟨accepts_iff, fun s c rest hp ha hm => step_of_hostMoves hp ha hm, fun s t c rest hp ha hn h => ?_⟩
  rcases step_of_held h hn hp ha with rfl | ⟨hr, rfl⟩
  · exact ⟨rfl, rfl, rfl, rfl, rfl, fun hacc => by simp [held_after_round _ ha] at hacc⟩
  · exact ⟨rfl, rfl, rfl, rfl, rfl, fun _ => ⟨hr, rfl, rfl, rfl, rfl⟩⟩

end Sys2Proof.Machine
end

section
/-! PROOFS. The key schedule: which key register each subkey position selects (41_key_schedule.md). -/
namespace Sys2Proof.Machine

/-! ### The two cases of `kidx` (R66) -/

theorem kidx_toNat_of_le {j : BitVec 5} (h : j.toNat ≤ 23) : (kidx j).toNat = j.toNat % 8 := by
  simp [kidx, h]

theorem kidx_toNat_of_ge {j : BitVec 5} (h : 24 ≤ j.toNat) : (kidx j).toNat = 7 - j.toNat % 8 := by
  have hturn : ¬ j.toNat ≤ 23 := by omega
  simp only [kidx, hturn, if_false, BitVec.toNat_ofNat]
  omega

/-- Settles O45: the two cases as the rule has them, and the bit form. -/
theorem keyIndexCases : Obligations.KeyIndexCases :=
  ⟨fun _ h => kidx_toNat_of_le h, fun _ h => kidx_toNat_of_ge h, kidx_bits⟩

/-! ### The shape of the subkey sequence (R68) -/

/-- Below the turn the selector repeats every eight positions. -/
theorem kidx_ofNat_mod {i : Nat} (h : i < 24) : kidx (BitVec.ofNat 5 i) = kidx (BitVec.ofNat 5 (i % 8)) := by
  have hi : (BitVec.ofNat 5 i).toNat = i := by simp; omega
  have hm : (BitVec.ofNat 5 (i % 8)).toNat = i % 8 := by simp; omega
  apply BitVec.eq_of_toNat_eq
  rw [kidx_toNat_of_le (by omega), kidx_toNat_of_le (by omega), hi, hm, Nat.mod_mod]

/-- From the turn on the selector runs back over its first eight positions. -/
theorem kidx_ofNat_turn {n : Nat} (h : n < 8) : kidx (BitVec.ofNat 5 (24 + n)) = kidx (BitVec.ofNat 5 (7 - n)) := by
  have ht : (BitVec.ofNat 5 (24 + n)).toNat = 24 + n := by simp; omega
  have hb : (BitVec.ofNat 5 (7 - n)).toNat = 7 - n := by simp; omega
  apply BitVec.eq_of_toNat_eq
  rw [kidx_toNat_of_ge (by omega), kidx_toNat_of_le (by omega), ht, hb]
  omega

theorem subkey_ofNat_mod (K : Vector Word 8) {i : Nat} (h : i < 24) :
    subkey K (BitVec.ofNat 5 i) = subkey K (BitVec.ofNat 5 (i % 8)) :=
  congrArg (readKey K) (kidx_ofNat_mod h)

theorem subkey_ofNat_turn (K : Vector Word 8) {n : Nat} (h : n < 8) :
    subkey K (BitVec.ofNat 5 (24 + n)) = subkey K (BitVec.ofNat 5 (7 - n)) :=
  congrArg (readKey K) (kidx_ofNat_turn h)

/-- Settles O46: the selector's shape, read through the key file. -/
theorem subkeySequenceShape : Obligations.SubkeySequenceShape :=
  fun K => ⟨fun _ h => subkey_ofNat_mod K h, fun _ h => subkey_ofNat_turn K h⟩

/-! ### The 32 subkeys, and their traversal (R67, R70) -/

/-- Counting the positions down reads a sequence backwards. -/
theorem map_range_countdown {α : Type} (f : Nat → α) (n : Nat) :
    (List.range n).map (fun i => f (n - 1 - i)) = ((List.range n).map f).reverse := by
  conv_rhs => rw [← List.map_reverse, List.range_eq_range', List.reverse_range', List.map_map, Nat.zero_add]
  rfl

/-- The first eight subkeys are the key words in order. -/
theorem subkeys_first_block (K : Vector Word 8) :
    ((List.range 8).map fun n => subkey K (BitVec.ofNat 5 n)) = K.toList :=
  (key_toList K).symm

/-- A block of eight positions that ends by the turn reads the key words in order. -/
theorem subkeys_forward_block (K : Vector Word 8) {b : Nat} (hb : b < 3) :
    ((List.range 8).map fun n => subkey K (BitVec.ofNat 5 (8 * b + n))) = K.toList := by
  rw [← subkeys_first_block]
  refine List.map_congr_left fun n hn => ?_
  have hn : n < 8 := List.mem_range.1 hn
  rw [subkey_ofNat_mod K (by omega), Nat.mul_add_mod, Nat.mod_eq_of_lt hn]

/-- The block of eight positions after the turn reads the key words backwards. -/
theorem subkeys_last_block (K : Vector Word 8) :
    ((List.range 8).map fun n => subkey K (BitVec.ofNat 5 (24 + n))) = K.toList.reverse := by
  rw [← subkeys_first_block, ← map_range_countdown]
  exact List.map_congr_left fun n hn => subkey_ofNat_turn K (List.mem_range.1 hn)

/-- R67 written out: the key words three times forward and once backwards. -/
theorem deriveSubkeys_eq (K : Vector Word 8) :
    deriveSubkeys K = K.toList ++ K.toList ++ K.toList ++ K.toList.reverse := by
  have hblocks : List.range 32 = List.range 8 ++ (List.range 8).map (8 * 1 + ·) ++
      (List.range 8).map (8 * 2 + ·) ++ (List.range 8).map (24 + ·) := by decide
  simp only [deriveSubkeys, hblocks, List.map_append, List.map_map, Function.comp_def]
  rw [subkeys_first_block, subkeys_forward_block K (by decide), subkeys_forward_block K (by decide),
    subkeys_last_block]

/-- The decrypt position never wraps on 5 bits. -/
theorem pos_decrypt_toNat (i : BitVec 5) : (pos .decrypt i).toNat = 31 - i.toNat := by
  have hi := i.isLt
  simp only [pos, BitVec.toNat_sub, BitVec.toNat_ofNat]
  omega

/-- R70, derived form. -/
theorem pos_decrypt_eq_not (i : BitVec 5) : pos .decrypt i = ~~~ i := by
  apply BitVec.eq_of_toNat_eq
  rw [pos_decrypt_toNat, BitVec.toNat_not]

/-- Decryption traverses the sequence backwards (R70). -/
theorem decrypt_traversal (K : Vector Word 8) :
    ((List.range 32).map fun i => subkey K (pos .decrypt (BitVec.ofNat 5 i))) = (deriveSubkeys K).reverse := by
  rw [deriveSubkeys, ← map_range_countdown]
  exact List.map_congr_left fun i hi => congrArg (subkey K) (pos_decrypt_ofNat (List.mem_range.1 hi))

/-- Settles O47: the sequence block by block, and the traversal from the position of each round. -/
theorem decryptReadsSubkeysBackwards : Obligations.DecryptReadsSubkeysBackwards :=
  fun K => ⟨fun _ => rfl, rfl, deriveSubkeys_eq K, fun i => ⟨rfl, pos_decrypt_toNat i, pos_decrypt_eq_not i⟩,
    rfl, decrypt_traversal K⟩

end Sys2Proof.Machine
end

section
/-! PROOFS. The datapath stage by stage: adder, lookup, rotator, and their composition (42_round_function.md). -/
namespace Sys2Proof.Machine

/-! ### The adder's gate form (R71) -/

/-- The end-around sum, before all-ones is folded to zero. -/
def endAroundSum (h k : Word) : Word :=
  (h.setWidth 33 + k.setWidth 33).extractLsb' 0 32 + ((h.setWidth 33 + k.setWidth 33).extractLsb' 32 1).setWidth 32

theorem modaddGates_eq (h k : Word) :
    modaddGates h k = if endAroundSum h k = 0xFFFFFFFF#32 then 0#32 else endAroundSum h k := rfl

/-- The 33-bit sum is exact. -/
theorem wideSum_toNat (h k : Word) : (h.setWidth 33 + k.setWidth 33).toNat = h.toNat + k.toNat := by
  have hh := h.isLt
  have hk := k.isLt
  simp only [BitVec.toNat_add, BitVec.toNat_setWidth]
  omega

/-- The carry stands for `2^32` and comes back as 1, so it takes the modulus off the sum. -/
theorem endAroundSum_toNat (h k : Word) :
    (endAroundSum h k).toNat =
      if h.toNat + k.toNat < 2 ^ 32 then h.toNat + k.toNat else h.toNat + k.toNat - 0xFFFFFFFF := by
  have hh := h.isLt
  have hk := k.isLt
  rw [endAroundSum, BitVec.toNat_add, BitVec.toNat_setWidth, BitVec.extractLsb'_toNat, BitVec.extractLsb'_toNat,
    wideSum_toNat, Nat.shiftRight_eq_div_pow, Nat.shiftRight_eq_div_pow]
  split <;> omega

/-- Below `2^33 - 1`, one subtraction of the modulus and the fold of all-ones to zero are the whole remainder. -/
theorem modaddGates_toNat (h k : Word) : (modaddGates h k).toNat = (h.toNat + k.toNat) % 0xFFFFFFFF := by
  have hh := h.isLt
  have hk := k.isLt
  have hsum := endAroundSum_toNat h k
  rw [modaddGates_eq]
  by_cases hones : endAroundSum h k = 0xFFFFFFFF#32
  · rw [if_pos hones]
    rw [hones, BitVec.toNat_ofNat] at hsum
    rw [BitVec.toNat_ofNat]
    split at hsum <;> omega
  · have hne : (endAroundSum h k).toNat ≠ 0xFFFFFFFF := fun e => hones (BitVec.eq_of_toNat_eq e)
    rw [if_neg hones]
    split at hsum <;> omega

/-- Settles O40: both forms are the remainder of the exact sum. -/
theorem adderIsEndAroundCarry : Obligations.AdderIsEndAroundCarry :=
  fun h k => ⟨modadd_toNat h k, BitVec.eq_of_toNat_eq (by rw [modadd_toNat, modaddGates_toNat])⟩

/-! ### The lookup (R72 to R74) -/

/-- Each nibble goes through its own table and stays in its place. -/
@[simp] theorem nib_subst32 (sb : SBox) (v : Word) (i : Fin 8) : nib (subst32 sb v) i = sb i (nib v i) :=
  nib_of_toNat (n := fun i => sb i (nib v i)) (subst32_toNat sb v) i

theorem subst32_toNat_eq_sum (sb : SBox) (v : Word) :
    (subst32 sb v).toNat = ∑ i : Fin 8, (sb i (nib v i)).toNat * 2 ^ (4 * i.val) := by
  rw [subst32_toNat, Fin.sum_univ_eight]
  simp [Nat.mul_comm]

/-- Equal results have equal nibbles, and each permutation gives its nibble back. -/
theorem subst32_injective {sb : SBox} (hperm : sb.IsPermutation) : Function.Injective (subst32 sb) := by
  intro v w h
  refine word_eq_of_nibbles fun i => sbox_injective hperm i ?_
  rw [← nib_subst32 sb v, ← nib_subst32 sb w, h]

theorem subst32_bijective {sb : SBox} (hperm : sb.IsPermutation) : Function.Bijective (subst32 sb) :=
  Finite.injective_iff_bijective.1 (subst32_injective hperm)

/-- With the identity tables the lookup passes every word through. -/
theorem subst32_id (v : Word) : subst32 (fun _ n => n) v = v :=
  word_eq_of_nibbles fun i => nib_subst32 _ v i

/-- Settles O42: nibble by nibble, and injective on a finite set for the permutation. -/
theorem substitutionIsNibbleParallel : Obligations.SubstitutionIsNibbleParallel :=
  ⟨nib_toNat, nib_subst32, subst32_toNat_eq_sum, fun _ => subst32_bijective⟩

/-! ### The rotator (R75) -/

/-- Bits 0 to 20 move up by 11; bits 21 to 31 wrap round to bits 0 to 10. -/
theorem rotl11_getLsbD_target (v : Word) {n : Nat} (hn : n < 32) :
    (rotl11 v).getLsbD ((n + 11) % 32) = v.getLsbD n := by
  rw [rotl11_getLsbD v _ (Nat.mod_lt _ (by decide))]
  by_cases hlow : n < 21
  · rw [Nat.mod_eq_of_lt (by omega : n + 11 < 32), if_neg (by omega), Nat.add_sub_cancel]
  · have hwrap : (n + 11) % 32 = n - 21 := by omega
    rw [hwrap, if_pos (by omega), Nat.sub_add_cancel (by omega)]

theorem rotl11_toNat (v : Word) : (rotl11 v).toNat = (v.toNat * 2 ^ 11 % 2 ^ 32 ||| v.toNat / 2 ^ 21) := by
  rw [rotl11, BitVec.toNat_or, BitVec.toNat_shiftLeft, BitVec.toNat_ushiftRight, Nat.shiftLeft_eq,
    Nat.shiftRight_eq_div_pow]

/-- The rotated word is the low field above the high field. -/
theorem rotl11_eq_append (v : Word) : rotl11 v = (v.extractLsb' 0 21 ++ v.extractLsb' 21 11 : BitVec 32) := by
  apply BitVec.eq_of_getLsbD_eq
  intro n hn
  change _ = (v.extractLsb' 0 21 ++ v.extractLsb' 21 11 : BitVec (21 + 11)).getLsbD n
  rw [rotl11_getLsbD v n hn, BitVec.getLsbD_append]
  by_cases hlow : n < 11
  · simp [hlow, Nat.add_comm]
  · simp [hlow, show n - 11 < 21 by omega]

/-- Settles O43, from the bit the rotator reads at each place of its result. -/
theorem rotatorMovesEveryBit : Obligations.RotatorMovesEveryBit :=
  ⟨fun v _ hn => rotl11_getLsbD_target v hn, rotl11_toNat, rotl11_eq_append⟩

/-! ### Zero and all-ones in the adder (R78) -/

/-- All-ones is the modulus, so adding it changes no remainder. -/
theorem modadd_allOnes_right (h : Word) : modadd h 0xFFFFFFFF#32 = modadd h 0#32 := by
  apply BitVec.eq_of_toNat_eq
  rw [modadd_toNat, modadd_toNat]
  exact Nat.add_mod_right h.toNat 0xFFFFFFFF

theorem modadd_allOnes_left (k : Word) : modadd 0xFFFFFFFF#32 k = modadd 0#32 k := by
  rw [modadd_comm, modadd_allOnes_right, modadd_comm]

/-- A remainder is below its modulus. -/
theorem modadd_ne_allOnes (h k : Word) : modadd h k ≠ 0xFFFFFFFF#32 := by
  intro e
  have hlt := Nat.mod_lt (h.toNat + k.toNat) (show 0 < 0xFFFFFFFF by decide)
  rw [← modadd_toNat, e] at hlt
  exact absurd hlt (by decide)

theorem modadd_toNat_of_lt {h k : Word} (hlt : h.toNat + k.toNat < 0xFFFFFFFF) :
    (modadd h k).toNat = h.toNat + k.toNat := by
  rw [modadd_toNat, Nat.mod_eq_of_lt hlt]

/-- The four pairs of R76's corner case (a) add to zero. -/
theorem modadd_zero_or_allOnes {h k : Word} (hh : h = 0#32 ∨ h = 0xFFFFFFFF#32)
    (hk : k = 0#32 ∨ k = 0xFFFFFFFF#32) : modadd h k = 0#32 := by
  have hleft : modadd h k = modadd 0#32 k := by
    rcases hh with rfl | rfl
    · rfl
    · exact modadd_allOnes_left k
  rw [hleft]
  rcases hk with rfl | rfl
  · rfl
  · exact modadd_allOnes_right 0#32

/-! ### The stages composed (R76) -/

/-- Settles O44: the composition is the definition, and the corner cases come from the stages. -/
theorem roundMixComposesTheStages : Obligations.RoundMixComposesTheStages := by
  refine ⟨fun _ _ _ => rfl, fun sb _ _ _ _ => roundMix_congr sb, fun sb h k hh hk => ?_, fun h k => ?_⟩
  · rw [roundMix, modadd_zero_or_allOnes hh hk]
  · rw [roundMix, subst32_id]

/-! ### The laws carried to the round and the transform (R78) -/

/-- Both later stages are injective, so what the adder never gives, the round never mixes. -/
theorem roundMix_ne_of_allOnes {sb : SBox} (hperm : sb.IsPermutation) (h k : Word) :
    roundMix sb h k ≠ rotl11 (subst32 sb 0xFFFFFFFF#32) := by
  intro e
  exact modadd_ne_allOnes h k (subst32_injective hperm (rotl11_injective e))

/-- A transform reads its key only through the adder. -/
theorem transformBlock_congr (sb : SBox) {K K' : Vector Word 8}
    (h : ∀ (a : Word) (j : BitVec 3), modadd a (readKey K j) = modadd a (readKey K' j)) (x : Block) (m : Mode) :
    transformBlock sb x K m = transformBlock sb x K' m := by
  rw [transformBlock, transformBlock, loopPasses_congr sb h]

/-- Key words swapped between 0 and all-ones add alike. -/
theorem modadd_congr_of_swapped {w w' : Word}
    (h : w = w' ∨ (w = 0#32 ∧ w' = 0xFFFFFFFF#32) ∨ (w = 0xFFFFFFFF#32 ∧ w' = 0#32)) (a : Word) :
    modadd a w = modadd a w' := by
  rcases h with rfl | ⟨rfl, rfl⟩ | ⟨rfl, rfl⟩
  · rfl
  · exact (modadd_allOnes_right a).symm
  · exact modadd_allOnes_right a

/-- Settles O41: each law is the adder's, carried through the stages or the loop where it speaks of them. -/
theorem adderLaws : Obligations.AdderLaws :=
  ⟨modadd_comm, modadd_allOnes_right,
    fun sb _ _ hswap => transformBlock_congr sb fun a j => modadd_congr_of_swapped (hswap j) a,
    modadd_allOnes_left, fun sb k => roundMix_congr sb (modadd_allOnes_left k), modadd_ne_allOnes,
    fun _ h k hperm => roundMix_ne_of_allOnes hperm h k, fun _ _ => modadd_toNat_of_lt⟩

end Sys2Proof.Machine
end

section
/-! PROOFS. The Feistel core: the round trip of the loop, the sequencer's two steps, and the transform they compute in
place under every schedule (43_feistel_core.md). -/
namespace Sys2Proof.Machine

/-! ### The loop, and the loop run backwards (R80, R85) -/

/-- The passes are the source's loop, a fold over the rounds. -/
theorem loopPasses_eq_foldl (sb : SBox) (K : Vector Word 8) (m : Mode) (n : Nat) (p : Word × Word) :
    loopPasses sb K m n p = (List.range n).foldl (fun p i => loopPass sb K m (BitVec.ofNat 5 i) p) p := by
  induction n with
  | zero => rfl
  | succ n ih => rw [loopPasses_succ, ih, List.range_succ, List.foldl_append, List.foldl_cons, List.foldl_nil]

/-- Settles O48: the passes as a fold; the final swap and the join are `joinHalves` of the pair unswapped. -/
theorem transformBlockIsTheSourceLoop : Obligations.TransformBlockIsTheSourceLoop := by
  refine fun sb x K => ⟨fun m => ?_, rfl, rfl⟩
  rw [transformBlock, loopPasses_eq_foldl]
  rfl

/-- Round `i` of one mode reads the subkey position of round `31 - i` of the other (R70). -/
theorem pos_ofNat_of_ne {m m' : Mode} (h : m ≠ m') {i : Nat} (hi : i < 32) :
    pos m (BitVec.ofNat 5 (31 - i)) = pos m' (BitVec.ofNat 5 i) := by
  cases m with
  | encrypt =>
    cases m' with
    | encrypt => exact absurd rfl h
    | decrypt => exact (pos_decrypt_ofNat hi).symm
  | decrypt =>
    cases m' with
    | decrypt => exact absurd rfl h
    | encrypt =>
      rw [pos_decrypt_ofNat (by omega), Nat.sub_sub_self (by omega)]
      rfl

/-- On the swapped end of the one mode's loop, `n` passes of the other mode take back its last `n`. -/
theorem loopPasses_undo (sb : SBox) (K : Vector Word 8) {m m' : Mode} (h : m ≠ m') (p : Word × Word) {n : Nat}
    (hn : n ≤ 32) : loopPasses sb K m' n (loopPasses sb K m 32 p).swap = (loopPasses sb K m (32 - n) p).swap := by
  induction n with
  | zero => rfl
  | succ n ih =>
    have hlast : 32 - n = (31 - n) + 1 := by omega
    have hleft : 32 - (n + 1) = 31 - n := by omega
    rw [loopPasses_succ, ih (by omega), hlast, hleft, loopPasses_succ]
    exact loopPass_undo sb K (pos_ofNat_of_ne h (by omega)) _

/-- Each mode undoes the other, whatever the tables hold (R85). -/
theorem transformBlock_undo (sb : SBox) (K : Vector Word 8) {m m' : Mode} (h : m ≠ m') (x : Block) :
    transformBlock sb (transformBlock sb x K m) K m' = x := by
  have hloop := loopPasses_undo sb K h (lo32 x, hi32 x) (le_refl 32)
  rw [transformBlock, transformBlock, lo32_joinHalves, hi32_joinHalves]
  exact (congrArg (fun q : Word × Word => joinHalves q.1 q.2) hloop).trans (joinHalves_split x)

/-! ### The sequencer's two steps (R81, R82) -/

theorem sequencerStep_of_lt (sb : SBox) {s : State} (h : s.RND.toNat < 32) : sequencerStep sb s = roundStep sb s :=
  if_pos h

theorem sequencerStep_of_eq (sb : SBox) {s : State} (h : s.RND.toNat = 32) : sequencerStep sb s = finalStep s :=
  if_neg (by omega)

theorem pos_eq_ite (m : Mode) (i : BitVec 5) : pos m i = if m = .encrypt then i else 31#5 - i := by
  cases m <;> rfl

/-- ROUND is one pass of the loop on the pair of halves, at the round `RND` counts (R81). -/
theorem roundStep_halves (sb : SBox) (s : State) :
    ((roundStep sb s).A, (roundStep sb s).B) = loopPass sb s.K s.MODE (BitVec.ofNat 5 s.RND.toNat) (s.A, s.B) := by
  rw [BitVec.ofNat_toNat]
  rfl

/-- Settles O24: the sequencer's step is ROUND, whose right-hand sides are the rule's. -/
theorem roundStepIsOnePass : Obligations.RoundStepIsOnePass := by
  intro s hm hb hr
  have hstep := step_of_sequencerMoves hm ((sequencerEnabled_iff s).2 ⟨hb, hr.le⟩)
  rw [sequencerStep_of_lt (s := afterTurn s) _ hr] at hstep
  refine ⟨_, hstep, rfl, ?_, roundStep_RND_toNat (s := afterTurn s) _ hr, rfl⟩
  rw [← pos_eq_ite]
  rfl

/-- Settles O25: the sequencer's step is FINAL, which leaves the core quiescent. -/
theorem finalStepSwapsAndStops : Obligations.FinalStepSwapsAndStops := by
  intro s hm hb hr
  have hr32 : s.RND.toNat = 32 := by rw [hr]; rfl
  have hstep := step_of_sequencerMoves hm ((sequencerEnabled_iff s).2 ⟨hb, hr32.le⟩)
  rw [sequencerStep_of_eq (s := afterTurn s) _ hr32] at hstep
  exact ⟨_, hstep, rfl, rfl, fun _ => rfl⟩

/-! ### One step of a busy core (R47, R83) -/

/-- Taking a NOP or an RDS appends the answer to it, one `STATUS` for an RDS, and touches nothing else. -/
theorem commandEffect_poll {c : CmdWord} {i : Instr} (hc : c = nopWord ∨ c = rdsWord) (hd : decode c = .command i)
    (s : State) :
    commandEffect s i = { s with responses := s.responses ++ List.replicate ([c].count rdsWord) (statusWord s) } := by
  rcases hc with rfl | rfl
  · obtain rfl : Instr.nop = i := Decoded.command.inj (((decode_nop_iff _).2 rfl).symm.trans hd)
    apply State.ext <;> simp [commandEffect, nopWord, rdsWord]
  · obtain rfl : Instr.rds = i := Decoded.command.inj (((decode_rds_iff _).2 rfl).symm.trans hd)
    apply State.ext <;> simp [commandEffect]

/-- The state after a step that takes the poll `c` and leaves `rest` presented. -/
def afterPoll (c : CmdWord) (rest : List CmdWord) (u : State) : State :=
  { afterTurn u with
    port := rest
    responses := u.responses ++ List.replicate ([c].count rdsWord) (statusWord u) }

/-- Without a reset a busy core takes a NOP or an RDS, or its sequencer moves. -/
theorem busy_step_cases {u : State} (hi : u.Inv) (hb : u.BUSY = true) (hn : noResetNow u) :
    (∃ c rest, u.port = c :: rest ∧ (c = nopWord ∨ c = rdsWord) ∧ step u = .next (afterPoll c rest u)) ∨
    (u.RND.toNat < 32 ∧ step u = .next (roundStep Config.SBOX (afterTurn u))) ∨
    (u.RND.toNat = 32 ∧ step u = .next (finalStep (afterTurn u))) := by
  have hbusy : u.BUSY ≠ false := by simp [hb]
  have hcase : AgentsCase Config.SBOX (afterTurn u) (step u) := by
    rw [step, stepWith_agents hn]
    exact agentsStep_case ..
  generalize step u = r at hcase ⊢
  cases hcase with
  | @command c rest i hp ha hd =>
    have hc : c = nopWord ∨ c = rdsWord := ((accepts_iff u c).1 ha).resolve_left hbusy
    exact .inl ⟨c, rest, hp, hc, congrArg _ (commandEffect_poll hc hd _)⟩
  | illegal hp hq hd => exact absurd hq hbusy
  | round hq hr => exact .inr (.inl ⟨hr, rfl⟩)
  | final hq hr => exact .inr (.inr ⟨hr, rfl⟩)
  | idle hq hp => exact absurd hq hbusy
  | stuck hq hr hp => exact absurd hi.rnd_le (Nat.not_le.2 hr)

/-! ### The busy interval (R83, R84) -/

/-- What stands still while a transform runs: the key, and every flag. -/
structure SameTransform (u v : State) : Prop where
  key : v.K = u.K
  mode : v.MODE = u.MODE
  ill : v.ILL = u.ILL
  busy : v.BUSY = u.BUSY
  done : v.DONE = u.DONE

theorem SameTransform.refl (u : State) : SameTransform u u := ⟨rfl, rfl, rfl, rfl, rfl⟩

theorem SameTransform.trans {u v w : State} (h : SameTransform u v) (h' : SameTransform v w) : SameTransform u w :=
  ⟨h'.key.trans h.key, h'.mode.trans h.mode, h'.ill.trans h.ill, h'.busy.trans h.busy, h'.done.trans h.done⟩

theorem SameTransform.statusWord_eq {u v : State} (h : SameTransform u v) : statusWord v = statusWord u :=
  statusWord_congr h.mode h.ill h.done h.busy

theorem sameTransform_afterPoll (c : CmdWord) (rest : List CmdWord) (u : State) :
    SameTransform u (afterPoll c rest u) := ⟨rfl, rfl, rfl, rfl, rfl⟩

theorem sameTransform_roundStep (sb : SBox) (u : State) : SameTransform u (roundStep sb (afterTurn u)) :=
  ⟨rfl, rfl, rfl, rfl, rfl⟩

/-- `n` steps lead from `u` to `t`, and the key and the flags stand still until the last of them. -/
def RunsInTransform (n : Nat) (u t : State) : Prop :=
  run n u = .next t ∧ ∀ k, k < n → ∃ v, run k u = .next v ∧ SameTransform u v

theorem runsInTransform_one {u t : State} (h : step u = .next t) : RunsInTransform 1 u t := by
  refine ⟨runWith_step h 0, fun k hk => ⟨u, ?_, .refl u⟩⟩
  rw [Nat.lt_one_iff.1 hk]
  rfl

theorem RunsInTransform.cons {n : Nat} {u v t : State} (h : step u = .next v) (hs : SameTransform u v)
    (hr : RunsInTransform n v t) : RunsInTransform (n + 1) u t := by
  obtain ⟨hrun, hbetween⟩ := hr
  refine ⟨(runWith_step h n).trans hrun, fun k hk => ?_⟩
  cases k with
  | zero => exact ⟨u, rfl, .refl u⟩
  | succ k =>
    obtain ⟨w, hw, hsame⟩ := hbetween k (Nat.lt_of_succ_lt_succ hk)
    exact ⟨w, (runWith_step h k).trans hw, hs.trans hsame⟩

/-- `t` is what the transform running in `u` ends with, the polls `taken` accepted on the way. -/
structure EndsTransform (u : State) (taken : List CmdWord) (t : State) : Prop where
  quiescent : t.BUSY = false
  done : t.DONE = true
  rnd : t.RND = 0#6
  key : t.K = u.K
  mode : t.MODE = u.MODE
  ill : t.ILL = u.ILL
  port : u.port = taken ++ t.port
  polls : ∀ c ∈ taken, c = nopWord ∨ c = rdsWord
  responses : t.responses = u.responses ++ List.replicate (taken.count rdsWord) (statusWord u)
  /-- Whatever pair the passes done so far came from, the halves end as its 32 passes and the final swap. -/
  halves : ∀ p, (u.A, u.B) = loopPasses Config.SBOX u.K u.MODE u.RND.toNat p →
    (t.B, t.A) = loopPasses Config.SBOX u.K u.MODE 32 p

theorem endsTransform_finalStep {u : State} (hr : u.RND.toNat = 32) : EndsTransform u [] (finalStep (afterTurn u)) where
  quiescent := rfl
  done := rfl
  rnd := rfl
  key := rfl
  mode := rfl
  ill := rfl
  port := rfl
  polls := by simp
  responses := by simp
  halves p hp := by rw [← hr]; exact hp

/-- ROUND brings the transform one pass nearer to the same end. -/
theorem EndsTransform.of_roundStep {u t : State} {taken : List CmdWord} (hr : u.RND.toNat < 32)
    (h : EndsTransform (roundStep Config.SBOX (afterTurn u)) taken t) : EndsTransform u taken t where
  quiescent := h.quiescent
  done := h.done
  rnd := h.rnd
  key := h.key
  mode := h.mode
  ill := h.ill
  port := h.port
  polls := h.polls
  responses := by
    rw [← (sameTransform_roundStep Config.SBOX u).statusWord_eq]
    exact h.responses
  halves p hp := by
    refine h.halves p ?_
    rw [roundStep_halves, roundStep_RND_toNat (s := afterTurn u) _ hr]
    exact congrArg (loopPass Config.SBOX u.K u.MODE (BitVec.ofNat 5 u.RND.toNat)) hp

/-- A poll leaves the transform where it is, and is one more word taken. -/
theorem EndsTransform.of_afterPoll {u t : State} {c : CmdWord} {rest taken : List CmdWord} (hp : u.port = c :: rest)
    (hc : c = nopWord ∨ c = rdsWord) (h : EndsTransform (afterPoll c rest u) taken t) :
    EndsTransform u (c :: taken) t where
  quiescent := h.quiescent
  done := h.done
  rnd := h.rnd
  key := h.key
  mode := h.mode
  ill := h.ill
  port := hp.trans (congrArg (c :: ·) h.port)
  polls := List.forall_mem_cons.2 ⟨hc, h.polls⟩
  responses := by
    have hcount : (c :: taken).count rdsWord = [c].count rdsWord + taken.count rdsWord :=
      List.count_append (l₁ := [c])
    rw [hcount, List.replicate_add, ← List.append_assoc, ← (sameTransform_afterPoll c rest u).statusWord_eq]
    exact h.responses
  halves := h.halves

/-- From any point of a transform on, by induction on the sequencer steps and the words still to come: it takes the
sequencer steps that are left and one step for each poll accepted between. -/
theorem transform_runs_to_its_end {u : State} (hi : u.Inv) (hb : u.BUSY = true) (hn : u.NoResetAhead) :
    ∃ taken t, EndsTransform u taken t ∧ RunsInTransform (33 - u.RND.toNat + taken.length) u t := by
  induction hk : 33 - u.RND.toNat + u.port.length generalizing u with
  | zero => have := hi.rnd_le; omega
  | succ k ih =>
    rcases busy_step_cases hi hb (noResetNow_of_ahead hn) with
      ⟨c, rest, hp, hc, hstep⟩ | ⟨hr, hstep⟩ | ⟨hr, hstep⟩
    · have hlen : 33 - u.RND.toNat + rest.length = k := by
        rw [hp, List.length_cons] at hk
        omega
      obtain ⟨taken, t, hend, hrun⟩ := ih (stepWith_inv hi hstep) hb (noResetAhead_step hn hstep) hlen
      exact ⟨c :: taken, t, hend.of_afterPoll hp hc, hrun.cons hstep (sameTransform_afterPoll c rest u)⟩
    · have hrnd := roundStep_RND_toNat (s := afterTurn u) Config.SBOX hr
      have hleft : 33 - u.RND.toNat = 33 - (roundStep Config.SBOX (afterTurn u)).RND.toNat + 1 := by
        rw [hrnd, afterTurn_RND]
        omega
      have hlen : 33 - (roundStep Config.SBOX (afterTurn u)).RND.toNat + u.port.length = k := by omega
      obtain ⟨taken, t, hend, hrun⟩ := ih (stepWith_inv hi hstep) hb (noResetAhead_step hn hstep) hlen
      refine ⟨taken, t, hend.of_roundStep hr, ?_⟩
      rw [hleft, Nat.add_right_comm]
      exact hrun.cons hstep (sameTransform_roundStep Config.SBOX u)
    · refine ⟨[], _, endsTransform_finalStep hr, ?_⟩
      rw [hr]
      exact runsInTransform_one hstep

/-! ### A whole transform (R84, R85) -/

theorem armSequencer_inv (m : Mode) (s : State) : (armSequencer m s).Inv := by
  simp [inv_iff]

theorem commandEffect_startCommand (m : Mode) (s : State) : commandEffect s (startCommand m) = armSequencer m s := by
  cases m <;> rfl

theorem startCommand_wellFormed (m : Mode) : (startCommand m).wellFormed = true := by
  cases m <;> rfl

/-- An armed sequencer runs its transform in 33 steps and one for each poll. -/
theorem armed_transform_runs {m : Mode} {s : State} (hn : (armSequencer m s).NoResetAhead) :
    ∃ taken t, EndsTransform (armSequencer m s) taken t ∧
      RunsInTransform (33 + taken.length) (armSequencer m s) t :=
  transform_runs_to_its_end (armSequencer_inv m s) rfl hn

/-- The block an armed sequencer ends with is the function's value (R84). -/
theorem EndsTransform.heldBlock_eq {s t : State} {m : Mode} {taken : List CmdWord}
    (h : EndsTransform (armSequencer m s) taken t) :
    heldBlock t = transformBlock Config.SBOX (heldBlock s) s.K m := by
  have hpasses : (t.B, t.A) = loopPasses Config.SBOX s.K m 32 (s.A, s.B) := h.halves (s.A, s.B) rfl
  rw [transformBlock, heldBlock, heldBlock, lo32_joinHalves, hi32_joinHalves, ← hpasses]

/-- Settles O51: ENC and DEC arm the sequencer, and the armed sequencer runs to its end. -/
theorem hardwareComputesTransformBlock : Obligations.HardwareComputesTransformBlock := by
  intro s s0 m hb hn hexec
  obtain rfl : armSequencer m s = s0 := by
    rw [exec_of_not_held (.inl hb), commandEffect_startCommand] at hexec
    exact Host.Outcome.next.inj hexec
  obtain ⟨taken, t, hend, hrun, hbetween⟩ := armed_transform_runs (m := m) (s := s) hn
  refine ⟨taken, t, hend.port, hend.polls, hrun, fun k hk => ?_, hend.quiescent, hend.done, hend.rnd, hend.mode,
    hend.ill, hend.key, hend.heldBlock_eq, hend.responses⟩
  obtain ⟨u, hu, hsame⟩ := hbetween k hk
  exact ⟨u, hu, hsame.busy, hsame.done, hsame.key, hsame.mode⟩

/-- With no poll presented next, a transform takes no word. -/
theorem EndsTransform.taken_eq_nil {u t : State} {taken : List CmdWord} (h : EndsTransform u taken t)
    (hp : ∀ c ∈ u.port.head?, c ≠ nopWord ∧ c ≠ rdsWord) : taken = [] := by
  cases taken with
  | nil => rfl
  | cons c taken =>
    obtain ⟨hnop, hrds⟩ := hp c (by simp [h.port])
    exact ((h.polls c (by simp)).elim hnop hrds).elim

/-- A quiescent core takes ENC or DEC and, with no poll presented behind it, ends the transform 33 steps later. -/
theorem run_startCommand {s : State} {m : Mode} {rest : List CmdWord} (hb : s.BUSY = false) (hn : s.NoResetAhead)
    (hp : s.port = encode (startCommand m) :: rest) (hrest : ∀ c ∈ rest.head?, c ≠ nopWord ∧ c ≠ rdsWord) :
    ∃ t, run 34 s = .next t ∧ t.NoResetAhead ∧
      EndsTransform (armSequencer m { s with port := rest, schedule := s.schedule.tail }) [] t := by
  have hstep := step_quiescent hb (noResetNow_of_ahead hn) hp (decode_encode (startCommand_wellFormed m))
  rw [commandEffect_startCommand] at hstep
  obtain ⟨taken, t, hend, hrun, -⟩ := armed_transform_runs (noResetAhead_step hn hstep)
  obtain rfl := hend.taken_eq_nil hrest
  have hrun34 : run 34 s = .next t := (runWith_step hstep 33).trans hrun
  exact ⟨t, hrun34, runWith_keeps (fun _ _ => noResetAhead_step) hn hrun34, hend⟩

/-- The word of ENC or DEC is no poll. -/
theorem encode_startCommand_ne_poll (m : Mode) :
    encode (startCommand m) ≠ nopWord ∧ encode (startCommand m) ≠ rdsWord := by
  cases m <;> decide

/-- Equal blocks held are equal halves (R11). -/
theorem halves_eq_of_heldBlock_eq {s t : State} (h : heldBlock t = heldBlock s) : t.A = s.A ∧ t.B = s.B := by
  simp only [heldBlock] at h
  exact ⟨by simpa using congrArg lo32 h, by simpa using congrArg hi32 h⟩

/-- Settles O49: the loop run backwards; in the hardware, two transforms one behind the other, and the same. -/
theorem roundTrip : Obligations.RoundTrip := by
  refine ⟨fun sb x K => ⟨transformBlock_undo sb K (by decide) x, transformBlock_undo sb K (by decide) x⟩,
    fun s m m' hm hb hn hp => ?_⟩
  obtain ⟨u, hrun, hnu, hend⟩ := run_startCommand hb hn hp (by simp [encode_startCommand_ne_poll])
  obtain ⟨t, hrun', -, hend'⟩ := run_startCommand hend.quiescent hnu hend.port.symm (by simp)
  have hblock : heldBlock t = heldBlock s :=
    calc heldBlock t = transformBlock Config.SBOX (heldBlock u) u.K m' := hend'.heldBlock_eq
      _ = transformBlock Config.SBOX (transformBlock Config.SBOX (heldBlock s) s.K m) s.K m' := by
        rw [hend.heldBlock_eq, hend.key]; rfl
      _ = heldBlock s := transformBlock_undo _ _ hm _
  obtain ⟨hA, hB⟩ := halves_eq_of_heldBlock_eq hblock
  exact ⟨34 + 34, t, (runWith_add hrun).trans hrun', ⟨hend'.port.symm, hend'.quiescent⟩, hA, hB,
    hend'.key.trans hend.key, hend'.done, hend'.mode⟩

end Sys2Proof.Machine
end

section
/-! PROOFS. NOP, the three loads and the three reads: their words, when they are accepted, what they leave
(44_cmd_load_read.md R90 to R96). -/
namespace Sys2Proof.Machine

/-! ### Acceptance (R47) -/

/-- The word of a command that a busy core holds is accepted exactly when `BUSY == 0`. -/
theorem accepts_encode_of_held {i : Instr} (hwf : i.wellFormed = true) (hheld : heldWhileBusy i = true) (s : State) :
    accepts s (encode i) = !s.BUSY := by
  simp [accepts_command (decode_encode hwf), hheld]

/-- The word of a command that a busy core does not hold is accepted in every state. -/
theorem accepts_encode_of_not_held {i : Instr} (hwf : i.wellFormed = true) (hheld : heldWhileBusy i = false)
    (s : State) : accepts s (encode i) = true := by
  simp [accepts_command (decode_encode hwf), hheld]

/-- Settles O6: NOP is never held, and its effect is the state it was given. -/
theorem nopChangesNothing : Obligations.NopChangesNothing := fun s =>
  ⟨by decide, accepts_encode_of_not_held rfl rfl s, exec_of_not_held (.inr rfl)⟩

/-! ### The loads (R91 to R93) -/

/-- The register an index below 8 names is the one of that number. -/
theorem eq_keyRegister_iff {idx : Nibble} (h : idx.toNat < 8) (j : BitVec 3) :
    j = idx.setWidth 3 ↔ j.toNat = idx.toNat := by
  rw [← BitVec.toNat_inj, BitVec.toNat_setWidth, Nat.mod_eq_of_lt h]

/-- The key file after a write to the register an index names. -/
theorem readKey_writeKey {idx : Nibble} (h : idx.toNat < 8) (w : Word) (s : State) (j : BitVec 3) :
    readKey (writeKey (idx.setWidth 3) w s).K j = if j.toNat = idx.toNat then w else readKey s.K j := by
  simp only [writeKey_K, readKey_set, eq_keyRegister_iff h]

/-- A word with LDK's opcode is illegal when its index names no key register (R91 (a)). -/
theorem decode_ldk_reserved {idx : Nibble} (h : 8 ≤ idx.toNat) (w : Word) :
    ∃ why, decode (assemble 0x1#4 idx w) = .illegal why := by
  rw [← no_row_iff_illegal, no_row_iff_of_ldk (opField_assemble _ _ _), idxField_assemble]
  exact h

/-- Settles O7: LDK's effect is one write of the key file; a reserved index takes the word out of LDK's row. -/
theorem ldkWritesOneKeyWord : Obligations.LdkWritesOneKeyWord := by
  refine fun idx w s => ⟨fun h8 => ⟨rfl, ?_, fun hb => ?_⟩, fun h8 => decode_ldk_reserved h8 w⟩
  · exact accepts_encode_of_held (by simpa [Instr.wellFormed] using h8) rfl s
  · have hexec : exec (.ldk idx w) s = .next (writeKey (idx.setWidth 3) w s) := by
      rw [exec_of_not_held (.inl hb), commandEffect_ldk_of_lt h8]
    exact ⟨_, hexec, readKey_writeKey h8 w s, rfl⟩

/-- Settles O8: LDL is held by a busy core, and its effect is `loadLower`. -/
theorem ldlLoadsLowerHalf : Obligations.LdlLoadsLowerHalf := fun _ s =>
  ⟨rfl, accepts_encode_of_held rfl rfl s, fun hb => exec_of_not_held (.inl hb)⟩

/-- Settles O9: LDH is held by a busy core, and its effect is `loadUpper`. -/
theorem ldhLoadsUpperHalf : Obligations.LdhLoadsUpperHalf := fun _ s =>
  ⟨rfl, accepts_encode_of_held rfl rfl s, fun hb => exec_of_not_held (.inl hb)⟩

/-! ### The reads of the block (R94, R95) -/

/-- Settles O10: RDL is held by a busy core, and its effect is to respond with `A`. -/
theorem rdlRespondsLowerHalf : Obligations.RdlRespondsLowerHalf := fun s =>
  ⟨by decide, accepts_encode_of_held rfl rfl s, fun hb => exec_of_not_held (.inl hb)⟩

/-- Settles O11: RDH is held by a busy core, and its effect is to respond with `B`. -/
theorem rdhRespondsUpperHalf : Obligations.RdhRespondsUpperHalf := fun s =>
  ⟨by decide, accepts_encode_of_held rfl rfl s, fun hb => exec_of_not_held (.inl hb)⟩

/-! ### The status read (R96) -/

theorem Mode.bit_eq_decide (m : Mode) : m.bit = decide (m = .decrypt) := by
  cases m <;> rfl

/-- `STATUS` with its four flags grouped from the right. -/
theorem statusWord_eq_append (s : State) :
    statusWord s = (0#28 ++ (BitVec.ofBool (s.MODE = .decrypt) ++ (BitVec.ofBool s.ILL ++
      (BitVec.ofBool s.DONE ++ BitVec.ofBool s.BUSY))) : BitVec 32) := by
  rw [statusWord, Mode.bit_eq_decide]
  simp only [BitVec.append_assoc, BitVec.cast_eq]

/-- The responses R96 (b) allows: bits 31:4 zero, `BUSY` and `DONE` not both 1. -/
def LegalStatus (v : Word) : Prop := v.toNat < 16 ∧ (v.getLsbD 1 && v.getLsbD 0) = false

/-- The values of R96 (b), written out. -/
def legalStatusValues : List Word :=
  [0x0#32, 0x1#32, 0x2#32, 0x4#32, 0x5#32, 0x6#32, 0x8#32, 0x9#32, 0xA#32, 0xC#32, 0xD#32, 0xE#32]

theorem mem_legalStatusValues_iff (v : Word) : v ∈ legalStatusValues ↔ LegalStatus v := by
  have hlegal : ∀ v ∈ legalStatusValues, LegalStatus v := by simp [legalStatusValues, LegalStatus]
  have hlisted : ∀ b : BitVec 4, (b.getLsbD 1 && b.getLsbD 0) = false → b.setWidth 32 ∈ legalStatusValues := by
    decide
  refine ⟨hlegal v, fun ⟨hlt, hflags⟩ => ?_⟩
  have hv : (v.setWidth 4).setWidth 32 = v := BitVec.eq_of_toNat_eq (by simp [Nat.mod_eq_of_lt hlt, v.isLt])
  exact hv ▸ hlisted (v.setWidth 4) (by simpa [BitVec.getLsbD_setWidth] using hflags)

/-- In a state of the invariant `STATUS` is legal (R23). -/
theorem legalStatus_of_inv {s : State} (h : s.Inv) : LegalStatus (statusWord s) := by
  refine ⟨statusWord_lt s, ?_⟩
  rw [statusWord_bit0, statusWord_bit1]
  cases hb : s.BUSY with
  | false => simp
  | true => simp [h.done_busy hb]

/-- The reset state but for the four flags, which are those of a given `STATUS`. -/
def stateWithStatus (v : Word) : State :=
  { State.reset with
    MODE := if v.getLsbD 3 then .decrypt else .encrypt
    ILL := v.getLsbD 2
    DONE := v.getLsbD 1
    BUSY := v.getLsbD 0 }

theorem statusWord_stateWithStatus {v : Word} (h : v.toNat < 16) : statusWord (stateWithStatus v) = v := by
  have hbelow : ∀ n < 16, statusWord (stateWithStatus (BitVec.ofNat 32 n)) = BitVec.ofNat 32 n := by decide
  simpa using hbelow v.toNat h

theorem stateWithStatus_inv {v : Word} (h : LegalStatus v) : (stateWithStatus v).Inv := by
  refine inv_iff.2 ⟨Nat.zero_le 32, fun _ => rfl, fun hb => ?_⟩
  have hflags : (v.getLsbD 1 && v.getLsbD 0) = false := h.2
  rwa [show v.getLsbD 0 = true from hb, Bool.and_true] at hflags

/-- Settles O13: RDS is never held, and a legal status is the `STATUS` of the reset state with its flags. -/
theorem rdsRespondsStatus : Obligations.RdsRespondsStatus := by
  refine ⟨fun s => ⟨by decide, accepts_encode_of_not_held rfl rfl s, exec_of_not_held (.inr rfl),
    statusWord_eq_append s⟩, fun v => (mem_legalStatusValues_iff v).trans ⟨fun hv => ?_, ?_⟩⟩
  · exact ⟨stateWithStatus v, stateWithStatus_inv hv, statusWord_stateWithStatus hv.1⟩
  · rintro ⟨s, hs, rfl⟩
    exact legalStatus_of_inv hs

end Sys2Proof.Machine
end

section
/-! PROOFS. The source's two functions as command lists: load a block, transform it, read it back
(45_cmd_transform.md R103). -/
namespace Sys2Proof.Machine

/-! ### The block in and out (R55) -/

theorem staysQuiescent_iff {i : Instr} : StaysQuiescent i ↔ i.wellFormed = true ∧ i ≠ .enc ∧ i ≠ .dec := by
  refine and_congr_right fun _ => ⟨fun h => ⟨h .encrypt, h .decrypt⟩, fun ⟨henc, hdec⟩ m => ?_⟩
  cases m with
  | encrypt => exact henc
  | decrypt => exact hdec

theorem loadBlockProgram_staysQuiescent (x : Block) : ∀ i ∈ loadBlockProgram x, StaysQuiescent i := by
  simp [loadBlockProgram, staysQuiescent_iff, Instr.wellFormed]

theorem readBlockProgram_staysQuiescent : ∀ i ∈ readBlockProgram, StaysQuiescent i := by
  simp [readBlockProgram, staysQuiescent_iff, Instr.wellFormed]

/-- The two loads overwrite both halves, so nothing of the old block is left. -/
theorem loadBlockProgram_effect (x : Block) (s : State) :
    (loadBlockProgram x).foldl commandEffect s = { s with A := lo32 x, B := hi32 x, DONE := false } := rfl

/-- The two reads answer the halves held, the lower first. -/
theorem readBlockProgram_effect (s : State) :
    readBlockProgram.foldl commandEffect s = { s with responses := s.responses ++ [s.A, s.B] } := by
  apply State.ext <;> simp [readBlockProgram, commandEffect]

/-- The transform of a block, from its load to its read, with the key already in place. -/
def blockProgram (m : Mode) (x : Block) : List Instr := loadBlockProgram x ++ [startCommand m] ++ readBlockProgram

theorem transformProgram_eq (m : Mode) (c0 c1 c2 c3 x : Block) :
    transformProgram m c0 c1 c2 c3 x = loadKeyProgram c0 c1 c2 c3 ++ blockProgram m x := by
  simp [transformProgram, blockProgram]

/-! ### From the load to the read (R103) -/

/-- The words a core is presented run to their end, and the responses are the halves of `r`, the lower first. -/
def AnswersBlock (s : State) (r : Block) : Prop :=
  ∃ n t, run n s = .next t ∧ t.Finished ∧ t.responses = s.responses ++ [lo32 r, hi32 r]

/-- What is answered after steps that answer nothing is answered from the start. -/
theorem AnswersBlock.of_run {s u : State} {r : Block} {k : Nat} (hrun : run k s = .next u)
    (hresp : u.responses = s.responses) (h : AnswersBlock u r) : AnswersBlock s r := by
  obtain ⟨n, t, hrun', hfin, hanswer⟩ := h
  exact ⟨k + n, t, (runWith_add hrun).trans hrun', hfin, hresp ▸ hanswer⟩

/-- A run leaves no reset ahead where its start had none ahead. -/
theorem noResetAhead_run {n : Nat} {s t : State} (hn : s.NoResetAhead) (h : run n s = .next t) : t.NoResetAhead :=
  runWith_keeps (fun _ _ => noResetAhead_step) hn h

/-- READBLK alone answers the block held. -/
theorem answersBlock_readBlock {s : State} (hb : s.BUSY = false) (hn : s.NoResetAhead)
    (hp : s.port = programWords readBlockProgram) : AnswersBlock s (heldBlock s) := by
  have hrun := run_program (rest := []) readBlockProgram_staysQuiescent hb hn (by simpa using hp)
  rw [readBlockProgram_effect] at hrun
  exact ⟨_, _, hrun, ⟨rfl, hb⟩, by simp [heldBlock]⟩

/-- ENC or DEC before READBLK: the block answered is the transform of the one held. -/
theorem answersBlock_start {s : State} {m : Mode} {x : Block} (hb : s.BUSY = false) (hn : s.NoResetAhead)
    (hx : heldBlock s = x) (hp : s.port = programWords (startCommand m :: readBlockProgram)) :
    AnswersBlock s (transformBlock Config.SBOX x s.K m) := by
  have hnopoll : encode .rdl ≠ nopWord ∧ encode .rdl ≠ rdsWord := by decide
  obtain ⟨t, hrun, hnt, hend⟩ := run_startCommand hb hn hp (by simpa [readBlockProgram] using hnopoll)
  have hread := answersBlock_readBlock hend.quiescent hnt hend.port.symm
  have hblock : heldBlock t = transformBlock Config.SBOX x s.K m := hx ▸ hend.heldBlock_eq
  exact .of_run hrun (by simpa using hend.responses) (hblock ▸ hread)

/-- LOADBLK before that: the block answered is the transform of the one loaded. -/
theorem answersBlock_blockProgram {s : State} {m : Mode} {x : Block} (hb : s.BUSY = false) (hn : s.NoResetAhead)
    (hp : s.port = programWords (blockProgram m x)) :
    AnswersBlock s (transformBlock Config.SBOX x s.K m) := by
  have hsplit : s.port = programWords (loadBlockProgram x) ++ programWords (startCommand m :: readBlockProgram) := by
    simpa [programWords, blockProgram] using hp
  have hload := run_program (loadBlockProgram_staysQuiescent x) hb hn hsplit
  rw [loadBlockProgram_effect] at hload
  refine .of_run hload rfl ?_
  exact answersBlock_start hb (noResetAhead_run hn hload) (joinHalves_split x) rfl

/-- Settles O53: the key is loaded first or held already; from there on it is the block's program. -/
theorem programAnswersTheTransform : Obligations.ProgramAnswersTheTransform := by
  refine fun s m x hb hn => ⟨fun c0 c1 c2 c3 hp => ?_, fun hp => ?_⟩
  · have hkey := loadKeyLaysOutComponents s c0 c1 c2 c3 (programWords (blockProgram m x)) hb hn
      (by simpa [transformProgram_eq, programWords] using hp)
    refine AnswersBlock.of_run hkey rfl ?_
    exact answersBlock_blockProgram hb (noResetAhead_run hn hkey) rfl
  · refine answersBlock_blockProgram hb hn ?_
    cases m with
    | encrypt => exact hp
    | decrypt => exact hp

end Sys2Proof.Machine
end

section
/-! PROOFS. IllegalCommand at the step (60_exceptions.md R110). -/
namespace Sys2Proof.Machine

/-- On a quiescent core no free choice is taken: the turn costs one schedule entry and nothing else. -/
theorem afterTurn_of_quiescent {s : State} (hb : s.BUSY = false) :
    afterTurn s = { s with schedule := s.schedule.tail } := by
  have hchoices : (afterTurn s).choices = s.choices := afterTurn_choices s (.inr (by simp [sequencerEnabled, hb]))
  apply State.ext <;> simp [hchoices]

/-- A quiescent core takes the illegal word presented and raises IllegalCommand. -/
theorem step_quiescent_illegal {s : State} {c : CmdWord} {why : IllegalClass} {rest : List CmdWord}
    (hb : s.BUSY = false) (hn : noResetNow s) (hp : s.port = c :: rest) (hd : decode c = .illegal why) :
    step s = .next (raiseIllegalCommand { s with port := rest, schedule := s.schedule.tail }) := by
  have haccepted : accepts s c = true := by simp [accepts_illegal hd, hb]
  rw [step_of_hostMoves hp haccepted (hostMoves_of_quiescent hb hn), performWord_illegal hd, afterTurn_of_quiescent hb]

/-- Running a meaning writes `ILL` only where the effect does, and no well-formed command's effect does. -/
theorem exec_keeps_ILL {i : Instr} {s t : State} (hwf : i.wellFormed = true) (h : exec i s = .next t) :
    t.ILL = s.ILL := by
  rw [exec_eq, Host.Outcome.next.injEq] at h
  subst h
  split
  · rfl
  · exact commandEffect_ILL s hwf

/-- Settles O23: the step raises IllegalCommand once the word has left the port; no command's effect writes `ILL`. -/
theorem illegalWordSetsOnlyIll : Obligations.IllegalWordSetsOnlyIll :=
  ⟨fun _ _ _ _ hp hd hb hn => step_quiescent_illegal hb hn hp hd, fun _ _ _ hwf h => exec_keeps_ILL hwf h⟩

end Sys2Proof.Machine
end

section
/-! PROOFS. Reset in any state (70_reset_and_hazards.md R130, R132). -/
namespace Sys2Proof.Machine

/-- A quiescent core holds no word back (R47). -/
theorem accepts_of_quiescent {s : State} (hb : s.BUSY = false) (c : CmdWord) : accepts s c = true := by
  simp [accepts, hb]

/-- A quiescent core has no sequencer step (R83). -/
theorem sequencerEnabled_of_quiescent {s : State} (hb : s.BUSY = false) : sequencerEnabled s = false := by
  simp [sequencerEnabled, hb]

/-- Settles O37: the reset action leaves a quiescent core, which holds no word back, has no sequencer step and answers
both halves from the zeroed block. -/
theorem resetActionInAnyState : Obligations.ResetActionInAnyState := by
  intro s withdraw sch hs
  have hquiescent : (resetAction withdraw (afterTurn s)).BUSY = false := resetAction_BUSY ..
  refine ⟨resetAction withdraw (afterTurn s), stepWith_reset hs, readKey_reset, rfl, rfl, rfl, rfl, hquiescent,
    rfl, rfl, rfl, rfl, accepts_of_quiescent hquiescent, sequencerEnabled_of_quiescent hquiescent, ?rdl, ?rdh⟩
  case rdl => exact exec_of_not_held (.inl hquiescent)
  case rdh => exact exec_of_not_held (.inl hquiescent)

end Sys2Proof.Machine
end

section
/-! PROOFS. The encoder and the decoder undo each other (30_encoding.md R48 to R50). -/
namespace Sys2Proof

/-- Settles O1: each opcode's fields are read back as they were assembled. -/
theorem decodeOfEncode : Obligations.DecodeOfEncode := fun _ hwf => Machine.decode_encode hwf

/-- A decoded command's word is put together again from the fields its row fixes and the operands it carries. -/
theorem encode_of_decode {c : CmdWord} {i : Instr} (h : decode c = .command i) : encode i = c := by
  obtain ⟨hrow, hoperands⟩ := decode_command_cases h
  rw [← assemble_fields c]
  cases i with
  | nop => simp only [encode, (rowNop_hit c).1 hrow]
  | ldk idx imm => simp only [encode, (rowLdk_hit c).1 hrow, hoperands]
  | ldl imm => simp only [encode, (rowLdl_hit c).1 hrow, hoperands]
  | ldh imm => simp only [encode, (rowLdh_hit c).1 hrow, hoperands]
  | enc => simp only [encode, (rowEnc_hit c).1 hrow]
  | dec => simp only [encode, (rowDec_hit c).1 hrow]
  | rdl => simp only [encode, (rowRdl_hit c).1 hrow]
  | rdh => simp only [encode, (rowRdh_hit c).1 hrow]
  | rds => simp only [encode, (rowRds_hit c).1 hrow]

/-- Settles O2: the row and the operands of a decoded command fix every bit of its word. -/
theorem encodeOfDecode : Obligations.EncodeOfDecode :=
  fun _ _ h => ⟨Machine.wellFormed_of_decode h, encode_of_decode h⟩

/-- Settles O5: the ten legal words are words of well-formed commands; the two others are rejected. -/
theorem writtenOutWordsDecode : Obligations.WrittenOutWordsDecode :=
  ⟨Machine.decode_encode (i := .nop) rfl, Machine.decode_encode (i := .ldk 3#4 0x11121314#32) rfl,
    Machine.decode_encode (i := .ldk 7#4 0xFFFFFFFF#32) rfl, Machine.decode_encode (i := .ldl 0x89ABCDEF#32) rfl,
    Machine.decode_encode (i := .ldh 0x01234567#32) rfl, Machine.decode_encode (i := .enc) rfl,
    Machine.decode_encode (i := .dec) rfl, Machine.decode_encode (i := .rdl) rfl,
    Machine.decode_encode (i := .rdh) rfl, Machine.decode_encode (i := .rds) rfl, by decide, by decide⟩

end Sys2Proof
end

section
/-! PROOFS. ENC and DEC, the model's choices about terms no step performs, and what each command leaves unchanged
(44_cmd_load_read.md, 45_cmd_transform.md). -/
namespace Sys2Proof.Machine

/-! ### The commands that start a transform (R100, R101) -/

/-- A busy core holds both, whatever the mode. -/
theorem heldWhileBusy_startCommand (m : Mode) : heldWhileBusy (startCommand m) = true := by
  cases m <;> rfl

/-- On a quiescent core either arms the sequencer in its own mode. -/
theorem exec_startCommand (m : Mode) {s : State} (hb : s.BUSY = false) :
    exec (startCommand m) s = .next (armSequencer m s) := by
  rw [exec_of_not_held (.inl hb), commandEffect_startCommand]

theorem accepts_startCommand (m : Mode) (s : State) : accepts s (encode (startCommand m)) = !s.BUSY :=
  accepts_encode_of_held (startCommand_wellFormed m) (heldWhileBusy_startCommand m) s

/-- Settles O14: ENC is the start command of mode Encrypt. -/
theorem encArmsTheSequencer : Obligations.EncArmsTheSequencer := fun s =>
  ⟨by decide, accepts_startCommand .encrypt s, exec_startCommand .encrypt⟩

/-- Settles O15: DEC is the start command of mode Decrypt. -/
theorem decArmsTheSequencer : Obligations.DecArmsTheSequencer := fun s =>
  ⟨by decide, accepts_startCommand .decrypt s, exec_startCommand .decrypt⟩

/-! ### Terms no step performs (assumption log 5, 6) -/

/-- Settles O16: the meaning of a held command is the state it was given. -/
theorem heldMeaningAnswersTheSameState : Obligations.HeldMeaningAnswersTheSameState := by
  intro i s hheld hb
  simp [exec_eq, hheld, hb]

/-- Settles O17: an index that names no register leaves LDK's effect to be IllegalCommand. -/
theorem ldkTermWithReservedIndexIsIllegal : Obligations.LdkTermWithReservedIndexIsIllegal := by
  intro idx w s h8 hb
  simp only [exec_of_not_held (i := .ldk idx w) (.inl hb), commandEffect, keyIndex_of_ge h8]
  rfl

/-! ### Frames -/

/-- A meaning answers the state it was given, while the command is held, or the command's effect. -/
theorem eq_or_commandEffect_of_exec {i : Instr} {s t : State} (h : exec i s = .next t) :
    t = s ∨ t = commandEffect s i := by
  rw [exec_eq, Host.Outcome.next.injEq] at h
  split at h
  · exact .inl h.symm
  · exact .inr h.symm

/-- Settles O18, command by command: what an effect does not name in its update it leaves as it was. -/
theorem loadFrame : Obligations.LoadFrame := by
  intro i s t hwf hload h
  rcases eq_or_commandEffect_of_exec h with rfl | rfl
  · exact ⟨fun _ _ => rfl, fun _ => rfl, fun _ => rfl, fun _ _ => rfl, rfl, rfl, rfl, rfl, rfl, rfl, rfl, rfl⟩
  rcases hload with rfl | ⟨idx, w, rfl⟩ | ⟨w, rfl⟩ | ⟨w, rfl⟩
  · exact ⟨fun _ _ => rfl, fun _ => rfl, fun _ => rfl, fun _ _ => rfl, rfl, rfl, rfl, rfl, rfl, rfl, rfl, rfl⟩
  · have h8 : idx.toNat < 8 := by simpa [Instr.wellFormed] using hwf
    rw [commandEffect_ldk_of_lt h8]
    refine ⟨fun j hj => ?_, fun _ => rfl, fun _ => rfl, fun _ _ => rfl, rfl, rfl, rfl, rfl, rfl, rfl, rfl, rfl⟩
    rw [readKey_writeKey h8, if_neg (hj idx w rfl).symm]
  · exact ⟨fun _ _ => rfl, fun hne => absurd rfl (hne w), fun _ => rfl, fun hne _ => absurd rfl (hne w),
      rfl, rfl, rfl, rfl, rfl, rfl, rfl, rfl⟩
  · exact ⟨fun _ _ => rfl, fun _ => rfl, fun hne => absurd rfl (hne w), fun _ hne => absurd rfl (hne w),
      rfl, rfl, rfl, rfl, rfl, rfl, rfl, rfl⟩

/-- A read's effect is to respond with one word. -/
theorem commandEffect_read {i : Instr} (h : i = .rdl ∨ i = .rdh ∨ i = .rds) (s : State) :
    ∃ v, commandEffect s i = respond v s := by
  rcases h with rfl | rfl | rfl
  · exact ⟨s.A, rfl⟩
  · exact ⟨s.B, rfl⟩
  · exact ⟨statusWord s, rfl⟩

/-- Settles O19: a response is appended to the stream and touches nothing else. -/
theorem readFrame : Obligations.ReadFrame := by
  intro i s t hread h
  rcases eq_or_commandEffect_of_exec h with rfl | rfl
  · exact ⟨rfl, rfl, rfl, rfl, rfl, rfl, rfl, rfl, ⟨[], List.append_nil _⟩, rfl, rfl, rfl⟩
  · obtain ⟨v, hv⟩ := commandEffect_read hread s
    rw [hv]
    exact ⟨rfl, rfl, rfl, rfl, rfl, rfl, rfl, rfl, ⟨[v], rfl⟩, rfl, rfl, rfl⟩

/-- Settles O20: ENC and DEC arm the sequencer, which writes `MODE`, `RND`, `BUSY` and `DONE` alone. -/
theorem startFrame : Obligations.StartFrame := by
  intro i s t hstart h
  obtain ⟨m, rfl⟩ : ∃ m, i = startCommand m := hstart.elim (⟨.encrypt, ·⟩) (⟨.decrypt, ·⟩)
  rcases eq_or_commandEffect_of_exec h with rfl | rfl
  · exact ⟨rfl, rfl, rfl, rfl, rfl, rfl, rfl, rfl⟩
  · rw [commandEffect_startCommand]
    exact ⟨rfl, rfl, rfl, rfl, rfl, rfl, rfl, rfl⟩

end Sys2Proof.Machine
end

section
/-! PROOFS. One step: the word it performs, how a word is placed before it, who writes `BUSY` and `MODE`; and the
invariant at reset (00_scope.md R9, 10_state.md R14, R16, R23). -/
namespace Sys2Proof.Machine

/-- Either no reset happens now or the schedule's head is one. -/
theorem reset_of_not_noResetNow {s : State} (h : ¬ noResetNow s) : ∃ w sch, s.schedule = .reset w :: sch := by
  simpa only [noResetNow, not_forall, not_not] using h

/-! ### The word a step performs (R9) -/

/-- With the host named at the schedule's head the host moves. -/
theorem hostMoves_of_schedule {s : State} {sch : List Turn} (hs : s.schedule = .host :: sch) : hostMoves s := by
  refine ⟨fun w sch' hs' => ?_, .inr ?_⟩
  · rw [hs] at hs'; cases hs'
  · simp [hostFirst, hs]

/-- Settles O21: a taken word is performed, which for a command's word is to run its meaning. -/
theorem stepRunsTheDecodedCommand : Obligations.StepRunsTheDecodedCommand := by
  refine ⟨fun s c rest i hp hd ha hm => ?_, fun s hb hn => hostMoves_of_quiescent hb hn,
    fun s sch hs => hostMoves_of_schedule hs, fun s hs h => afterTurn_eq_self hs h⟩
  simp only [step_of_hostMoves hp ha hm, performWord, hd]

/-- What the host's table check reads from a word the decoder reads too. -/
theorem decode_of_decodeTableWord {nbits w : Nat} {i : Instr} (h : decodeTableWord nbits w = some i) :
    decode (BitVec.ofNat 40 w) = .command i := by
  unfold decodeTableWord at h
  split at h
  · split at h
    · rename_i i' hd
      rw [hd, Option.some.inj h]
    · cases h
  · cases h

/-- The entry that `withFetchWord` puts on the schedule is the one its step uses up. -/
theorem afterTurn_presentWord (w : Nat) (s : State) : { afterTurn (presentWord w s) with port := s.port } = s := rfl

/-- Settles O22: the word is presented, accepted and on turn, so the step runs its command. -/
theorem fetchedWordRunsNext : Obligations.FetchedWordRunsNext := by
  intro s nbits w i hw h
  have hd := decode_of_decodeTableWord hw
  have haccepted : accepts (presentWord w s) (BitVec.ofNat 40 w) = true := by
    rw [accepts_command hd, presentWord_BUSY]
    rcases h with h | h <;> simp [h]
  have hrun := stepRunsTheDecodedCommand.1 (presentWord w s) _ s.port i rfl hd haccepted (hostMoves_of_schedule rfl)
  rwa [afterTurn_presentWord] at hrun

/-! ### A quiescent core (R121) -/

/-- Settles O38: with nothing presented no agent has a step, and the turn costs one schedule entry. -/
theorem quiescentCoreWaits : Obligations.QuiescentCoreWaits := by
  intro s hb hp hn
  rw [step, stepWith_agents hn, afterTurn_of_quiescent hb]
  simp [agentsStep, hostEnabled, hp, sequencerEnabled, hb]

/-! ### Who writes `BUSY` and `MODE` (R14, R16) -/

/-- A command that changes `BUSY` or `MODE` is ENC or DEC, which leaves its own mode. -/
theorem isStart_of_sequencer_changed {s : State} {i : Instr}
    (h : (commandEffect s i).BUSY ≠ s.BUSY ∨ (commandEffect s i).MODE ≠ s.MODE) :
    ∃ m, i = startCommand m ∧ (commandEffect s i).MODE = m := by
  by_cases hi : ∃ m, i = startCommand m
  · obtain ⟨m, rfl⟩ := hi
    exact ⟨m, rfl, by rw [commandEffect_startCommand, armSequencer_MODE]⟩
  · obtain ⟨hbusy, hmode, -⟩ := commandEffect_sequencer s (not_exists.1 hi)
    rcases h with h | h
    · exact absurd hbusy h
    · exact absurd hmode h

/-- The step takes ENC or DEC, and leaves `MODE` at that command's value. -/
def TakesStart (s t : State) : Prop :=
  ∃ c m, wordTaken s t c ∧ decode c = .command (startCommand m) ∧ t.MODE = m

/-- Without a reset a step that sets `BUSY` or changes `MODE` takes ENC or DEC. -/
theorem takesStart_of_changed {s t : State} (h : step s = .next t) (hn : noResetNow s)
    (hch : (s.BUSY = false ∧ t.BUSY = true) ∨ t.MODE ≠ s.MODE) : TakesStart s t := by
  rcases stepWith_case h with ⟨w, sch, hs, -⟩ | ⟨-, hc⟩
  · exact absurd hs (hn w sch)
  have hsame : t.BUSY = s.BUSY ∨ t.BUSY = false → t.MODE = s.MODE → TakesStart s t := by
    intro hb hm
    rcases hch with ⟨hs, ht⟩ | hne
    · simp [hs, ht] at hb
    · exact absurd hm hne
  cases hc with
  | @command c rest i hp ha hd =>
    obtain ⟨m, rfl, hm⟩ := isStart_of_sequencer_changed (s := { afterTurn s with port := rest }) (i := i)
      (hch.imp (fun ⟨hs, ht⟩ => by rw [ht]; simp [hs]) id)
    exact ⟨c, m, ⟨by simpa using hp, ha⟩, hd, hm⟩
  | illegal => exact hsame (.inl rfl) rfl
  | round => exact hsame (.inl rfl) rfl
  | final => exact hsame (.inr rfl) rfl
  | idle => exact hsame (.inl rfl) rfl

/-- Without a reset `BUSY` falls only by FINAL. -/
theorem step_RND_of_clears_BUSY {s t : State} (h : step s = .next t) (hn : noResetNow s) (hs : s.BUSY = true)
    (ht : t.BUSY = false) : s.RND = 32#6 := by
  rcases stepWith_case h with ⟨w, sch, hsch, -⟩ | ⟨-, hc⟩
  · exact absurd hsch (hn w sch)
  have hbusy : s.BUSY ≠ false := by simp [hs]
  cases hc with
  | command => exact absurd (quiescent_of_commandEffect_quiescent ht) hbusy
  | illegal => exact absurd ht hbusy
  | round => exact absurd ht hbusy
  | final hb hr => exact BitVec.eq_of_toNat_eq hr
  | idle => exact absurd ht hbusy

/-- Settles O29: the reset action is one writer; without it they are ENC, DEC and FINAL. -/
theorem busyAndModeWriters : Obligations.BusyAndModeWriters := by
  intro s t h
  by_cases hn : noResetNow s
  · exact ⟨fun hs ht => takesStart_of_changed h hn (.inl ⟨hs, ht⟩),
      fun hs ht => .inr ⟨step_RND_of_clears_BUSY h hn hs ht, step_clears_BUSY h hn hs ht⟩,
      fun hne => .inr (takesStart_of_changed h hn (.inr hne))⟩
  · obtain ⟨w, sch, hs⟩ := reset_of_not_noResetNow hn
    obtain rfl : resetAction w (afterTurn s) = t := Host.Outcome.next.inj ((stepWith_reset hs).symm.trans h)
    exact ⟨fun _ ht => by simp at ht, fun _ _ => .inl ⟨w, sch, hs⟩, fun _ => .inl ⟨w, sch, hs, rfl⟩⟩

/-! ### The invariant at reset (R22, R23) -/

/-- Settles O32: right after reset the core is quiescent with `RND` 0. -/
theorem invAtReset : Obligations.InvAtReset :=
  inv_iff.2 ⟨Nat.zero_le 32, fun _ => rfl, fun hb => by cases hb⟩

end Sys2Proof.Machine
end

section
/-! PROOFS. Equal key words (95_test_vectors.md section 6). -/
namespace Sys2Proof.Machine

/-- With all key words equal the position a round reads does not matter. -/
theorem loopPass_mode_eq {K : Vector Word 8} (h : ∀ i j : BitVec 3, readKey K i = readKey K j) (sb : SBox)
    (m m' : Mode) : loopPass sb K m = loopPass sb K m' := by
  funext i p
  rw [loopPass, loopPass, subkey, subkey, h (kidx (pos m i)) (kidx (pos m' i))]

/-- Settles O50: pass by pass the two modes do the same. -/
theorem equalKeyWordsEqualModes : Obligations.EqualKeyWordsEqualModes := by
  intro sb x K h
  simp only [encrypt, decrypt, transformBlock, loopPasses_eq_foldl, loopPass_mode_eq h sb .encrypt .decrypt]

end Sys2Proof.Machine
end

section
/-! PROOFS. Progress: the core always has a step, and every step without a reset brings it nearer to the end of its
words (43_feistel_core.md R83, 60_exceptions.md R114, 70_reset_and_hazards.md R138). -/
namespace Sys2Proof.Machine

/-! ### When the core has a step (R83, V5) -/

/-- An agents' step is stuck exactly on a busy core with `RND` above 32 and no acceptable word. -/
theorem AgentsCase.stuck_iff {sb : SBox} {s : State} {r : Result} (h : AgentsCase sb s r) :
    r = .fault .sequencerStuck ↔ s.BUSY = true ∧ 32 < s.RND.toNat ∧ hostEnabled s = false := by
  cases h with
  | command hp ha hd => simp [hostEnabled_cons hp, ha]
  | illegal hp hb hd => simp [hb]
  | round hb hr => simp [hr.le]
  | final hb hr => simp [hr]
  | idle hb hp => simp [hb]
  | stuck hb hr hp => simp [hb, hr, hp]

/-- An agents' step answers a next state unless it is stuck. -/
theorem AgentsCase.next_or_stuck {sb : SBox} {s : State} {r : Result} (h : AgentsCase sb s r) :
    (∃ t, r = .next t) ∨ r = .fault .sequencerStuck := by
  cases h with
  | stuck => exact .inr rfl
  | _ => exact .inl ⟨_, rfl⟩

/-- A step without a reset is one of the agents' cases. -/
theorem step_agentsCase {s : State} (hn : noResetNow s) : AgentsCase Config.SBOX (afterTurn s) (step s) := by
  rw [step, stepWith_agents hn]
  exact agentsStep_case ..

/-- The host has no step exactly when every word it presents is held. -/
theorem hostEnabled_eq_false_iff (s : State) :
    hostEnabled s = false ↔ ∀ c rest, s.port = c :: rest → accepts s c = false := by
  refine ⟨fun h c rest hp => hostEnabled_cons hp ▸ h, fun h => ?_⟩
  cases hp : s.port with
  | nil => simp [hostEnabled, hp]
  | cons c rest => rw [hostEnabled_cons hp, h c rest hp]

/-- Settles O35: the agents' case that is stuck is the only one on such a state, and is on no other. -/
theorem stuckOnlyAboveThirtyTwo : Obligations.StuckOnlyAboveThirtyTwo := by
  intro s hn
  rw [(step_agentsCase hn).stuck_iff, hostEnabled_afterTurn, hostEnabled_eq_false_iff, afterTurn_BUSY, afterTurn_RND]

/-- From a state of the invariant every step answers a next state (R114). -/
theorem step_answers_next {s : State} (hi : s.Inv) : ∃ t, step s = .next t := by
  by_cases hn : noResetNow s
  · refine (step_agentsCase hn).next_or_stuck.resolve_right fun hstuck => ?_
    exact absurd hi.rnd_le (Nat.not_le.2 ((step_agentsCase hn).stuck_iff.1 hstuck).2.1)
  · obtain ⟨w, sch, hs⟩ := reset_of_not_noResetNow hn
    exact ⟨_, stepWith_reset hs⟩

/-- Settles O34: `RND <= 32` is all the sequencer asks besides `BUSY`, and it rules the stuck state out. -/
theorem coreNeverStops : Obligations.CoreNeverStops := by
  refine fun s hi => ⟨?_, step_answers_next hi⟩
  simp [sequencerEnabled, hi.rnd_le]

/-! ### How far it is to the end of a run (R138) -/

/-- The sequencer steps left of the transform running, if one is. -/
def sequencerStepsLeft (s : State) : Nat := if s.BUSY then 33 - s.RND.toNat else 0

/-- The most steps a run without resets can still take: a word can start a transform, which makes it 34. -/
def stepsLeft (s : State) : Nat := sequencerStepsLeft s + 34 * s.port.length

theorem sequencerStepsLeft_le (s : State) : sequencerStepsLeft s ≤ 33 := by
  unfold sequencerStepsLeft
  split <;> omega

/-- Taking a word brings the end nearer by 34 steps, more than a transform it starts takes. -/
theorem stepsLeft_lt_of_taken {s t : State} {c : CmdWord} (hp : s.port = c :: t.port)
    (h : s.BUSY = true → sequencerStepsLeft t = sequencerStepsLeft s) : stepsLeft t < stepsLeft s := by
  have hstarted := sequencerStepsLeft_le t
  simp only [stepsLeft, hp, List.length_cons]
  by_cases hb : s.BUSY = true
  · rw [h hb]; omega
  · omega

/-- A sequencer step of a busy core is one step fewer to go. -/
theorem stepsLeft_lt_of_sequencer {s t : State} (hb : s.BUSY = true) (hr : s.RND.toNat ≤ 32) (hp : t.port = s.port)
    (h : t.BUSY = true → t.RND.toNat = s.RND.toNat + 1) : stepsLeft t < stepsLeft s := by
  simp only [stepsLeft, sequencerStepsLeft, hb, hp, if_true]
  split
  · rename_i ht
    rw [h ht]; omega
  · omega

/-- Until the run is finished, every step without a reset brings its end nearer. -/
theorem stepsLeft_step_lt {s t : State} (hi : s.Inv) (hn : noResetNow s) (hfin : ¬ s.Finished)
    (h : step s = .next t) : stepsLeft t < stepsLeft s := by
  have hc := step_agentsCase hn
  rw [h] at hc
  cases hc with
  | @command c rest i hp ha hd =>
    refine stepsLeft_lt_of_taken (c := c) (by simpa using hp) fun hb => ?_
    have hpoll : c = nopWord ∨ c = rdsWord := ((accepts_iff s c).1 ha).resolve_left (by simp [hb])
    rw [commandEffect_poll hpoll hd]
    rfl
  | @illegal c rest why hp hb hd =>
    exact stepsLeft_lt_of_taken (c := c) hp fun _ => rfl
  | round hb hr =>
    exact stepsLeft_lt_of_sequencer hb hi.rnd_le rfl fun _ => roundStep_RND_toNat (s := afterTurn s) _ hr
  | final hb hr => exact stepsLeft_lt_of_sequencer hb hi.rnd_le rfl fun ht => by cases ht
  | idle hb hp => exact absurd ⟨hp, hb⟩ hfin

/-- By induction on the steps left: a run without resets finishes within them. -/
theorem run_finishes {s : State} (hi : s.Inv) (hn : s.NoResetAhead) :
    ∃ n t, n ≤ stepsLeft s ∧ run n s = .next t ∧ t.Finished := by
  induction hk : stepsLeft s using Nat.strong_induction_on generalizing s with
  | _ k ih =>
    subst hk
    by_cases hfin : s.Finished
    · exact ⟨0, s, Nat.zero_le _, rfl, hfin⟩
    · obtain ⟨u, hstep⟩ := step_answers_next hi
      have hlt := stepsLeft_step_lt hi (noResetNow_of_ahead hn) hfin hstep
      obtain ⟨n, t, hle, hrun, hend⟩ := ih _ hlt (stepWith_inv hi hstep) (noResetAhead_step hn hstep) rfl
      exact ⟨n + 1, t, by omega, (runWith_step hstep n).trans hrun, hend⟩

/-- Settles O39: at most 33 steps are left of a transform, and 34 for each word presented. -/
theorem everyWordIsAccepted : Obligations.EveryWordIsAccepted := by
  intro s hi hn
  obtain ⟨n, t, hle, hrun, hend⟩ := run_finishes hi hn
  exact ⟨n, t, hle.trans (Nat.add_le_add_right (sequencerStepsLeft_le s) _), hrun, hend⟩

end Sys2Proof.Machine
end

section
/-! PROOFS. A schedule shows only in status polls: every run does to the registers what the run does that always lets a
transform end before the next word (43_feistel_core.md R86, 93_implementation_defined.md section 2). -/
namespace Sys2Proof.Machine

/-! ### The registers alone -/

/-- The state without its response stream and the environment's script. -/
def registers (s : State) : State := { s with responses := [], port := [], schedule := [], choices := 0 }

theorem fields_eq_of_registers_eq {s t : State} (h : registers s = registers t) :
    s.K = t.K ∧ s.A = t.A ∧ s.B = t.B ∧ s.MODE = t.MODE ∧ s.RND = t.RND ∧ s.DONE = t.DONE ∧ s.ILL = t.ILL := by
  simp only [registers, State.mk.injEq] at h
  obtain ⟨hK, hA, hB, hMODE, hRND, -, hDONE, hILL, -⟩ := h
  exact ⟨hK, hA, hB, hMODE, hRND, hDONE, hILL⟩

/-- What an accepted word leaves, legal or not (R48, R110). -/
def wordEffect (s : State) (c : CmdWord) : State :=
  match decode c with
  | .command i => commandEffect s i
  | .illegal _ => raiseIllegalCommand s

/-- What an accepted word answers (R39). -/
def wordAnswer (s : State) (c : CmdWord) : List Word :=
  match decode c with
  | .command i => answerOf s i
  | .illegal _ => []

/-- A word's effect on the registers comes from the registers. -/
theorem registers_wordEffect (s : State) (c : CmdWord) :
    registers (wordEffect (registers s) c) = registers (wordEffect s c) := by
  unfold wordEffect
  cases decode c with
  | illegal why => rfl
  | command i =>
    cases i with
    | ldk idx w => simp only [commandEffect]; cases keyIndex idx <;> rfl
    | _ => rfl

@[simp] theorem wordEffect_port (s : State) (c : CmdWord) : (wordEffect s c).port = s.port := by
  unfold wordEffect
  cases decode c with
  | command i => exact commandEffect_port s i
  | illegal why => rfl

theorem wordEffect_responses (s : State) (c : CmdWord) :
    (wordEffect s c).responses = s.responses ++ wordAnswer s c := by
  unfold wordEffect wordAnswer
  cases decode c with
  | command i => exact commandEffect_responses s i
  | illegal why => exact (List.append_nil _).symm

/-! ### The transform running, ended -/

/-- The registers once the transform running, if one is, has ended: the rounds left, then FINAL. -/
def settled (sb : SBox) (s : State) : State :=
  if s.BUSY then finalStep ((roundStep sb)^[32 - s.RND.toNat] (registers s)) else registers s

theorem settled_of_quiescent (sb : SBox) {s : State} (hb : s.BUSY = false) : settled sb s = registers s := by
  simp [settled, hb]

theorem settled_registers (sb : SBox) (s : State) : settled sb (registers s) = settled sb s := rfl

theorem settled_congr {sb : SBox} {s t : State} (h : registers s = registers t) : settled sb s = settled sb t := by
  rw [← settled_registers sb s, h, settled_registers]

/-- Settling touches no response and no script, so there is none in what it leaves. -/
theorem registers_settled (sb : SBox) (s : State) : registers (settled sb s) = settled sb s := by
  have hrounds : ∀ n, registers ((roundStep sb)^[n] (registers s)) = (roundStep sb)^[n] (registers s) := fun n =>
    Function.Semiconj.iterate_right (f := registers) (ga := roundStep sb) (gb := roundStep sb) (fun _ => rfl) n _
  unfold settled
  split
  · exact congrArg finalStep (hrounds _)
  · rfl

/-- A settled core is quiescent. -/
theorem settled_BUSY (sb : SBox) (s : State) : (settled sb s).BUSY = false := by
  unfold settled
  split
  · rfl
  · rename_i hb
    exact Bool.eq_false_iff.2 hb

theorem settled_settled (sb : SBox) (s : State) : settled sb (settled sb s) = settled sb s := by
  rw [settled_of_quiescent sb (settled_BUSY sb s), registers_settled]

/-- ROUND is one of the rounds left. -/
theorem settled_roundStep {sb : SBox} {s : State} (hb : s.BUSY = true) (hr : s.RND.toNat < 32) :
    settled sb (roundStep sb s) = settled sb s := by
  have hleft : 32 - s.RND.toNat = 32 - (s.RND.toNat + 1) + 1 := by omega
  simp only [settled, roundStep_BUSY, hb, if_true, roundStep_RND_toNat sb hr, hleft, Function.iterate_succ_apply]
  rfl

/-- FINAL is what is left after the last round. -/
theorem settled_finalStep {sb : SBox} {s : State} (hb : s.BUSY = true) (hr : s.RND.toNat = 32) :
    settled sb (finalStep s) = settled sb s := by
  simp only [settled, finalStep_BUSY, hb, if_true, hr]
  rfl

/-- A transform keeps `MODE` and `ILL`. -/
theorem settled_MODE_ILL (sb : SBox) (s : State) : (settled sb s).MODE = s.MODE ∧ (settled sb s).ILL = s.ILL := by
  have hrounds : ∀ n u, ((roundStep sb)^[n] u).MODE = u.MODE ∧ ((roundStep sb)^[n] u).ILL = u.ILL := by
    intro n
    induction n with
    | zero => exact fun u => ⟨rfl, rfl⟩
    | succ n ih => exact fun u => ih (roundStep sb u)
  unfold settled
  split
  · exact hrounds _ (registers s)
  · exact ⟨rfl, rfl⟩

/-! ### What no schedule can change of an answer -/

/-- The bits of a word's answer that no schedule can change. -/
def fixedAnswer (s : State) (c : CmdWord) : List Word :=
  List.zipWith (· &&& ·) (scheduleFreeBits c).toList (wordAnswer s c)

/-- A word has a mask for each word of its answer. -/
theorem wordAnswer_length (s : State) (c : CmdWord) :
    (wordAnswer s c).length = (scheduleFreeBits c).toList.length := by
  unfold wordAnswer scheduleFreeBits
  cases decode c with
  | illegal why => simp
  | command i => cases i <;> simp [answerOf]

/-- The mask of RDS leaves `MODE` and `ILL` of `STATUS`. -/
theorem statusWord_masked (s : State) : statusWord s &&& 0xFFFFFFFC#32 =
    (0#28 ++ BitVec.ofBool s.MODE.bit ++ BitVec.ofBool s.ILL ++ 0#2 : BitVec 32) := by
  unfold statusWord
  cases s.BUSY <;> cases s.DONE <;> cases s.ILL <;> cases s.MODE <;> decide

theorem fixedAnswer_nop (s : State) : fixedAnswer s nopWord = [] := by
  simp [fixedAnswer, wordAnswer, (decode_nop_iff nopWord).2 rfl, answerOf]

theorem fixedAnswer_rds (s : State) : fixedAnswer s rdsWord = [statusWord s &&& 0xFFFFFFFC#32] := by
  simp [fixedAnswer, wordAnswer, scheduleFreeBits, (decode_rds_iff rdsWord).2 rfl, answerOf, BitVec.and_comm]

/-- A poll's answer is the same, in those bits, once the transform has ended. -/
theorem fixedAnswer_poll {c : CmdWord} (hc : c = nopWord ∨ c = rdsWord) (sb : SBox) (s : State) :
    fixedAnswer (settled sb s) c = fixedAnswer s c := by
  rcases hc with rfl | rfl
  · rw [fixedAnswer_nop, fixedAnswer_nop]
  · obtain ⟨hmode, hill⟩ := settled_MODE_ILL sb s
    rw [fixedAnswer_rds, fixedAnswer_rds, statusWord_masked, statusWord_masked, hmode, hill]

/-- A poll leaves the registers as they are. -/
theorem registers_wordEffect_poll {c : CmdWord} (hc : c = nopWord ∨ c = rdsWord) (s : State) :
    registers (wordEffect s c) = registers s := by
  rcases hc with rfl | rfl
  · simp only [wordEffect, (decode_nop_iff nopWord).2 rfl, commandEffect]
  · simp only [wordEffect, (decode_rds_iff rdsWord).2 rfl, commandEffect]
    rfl

/-! ### The run that lets each transform end first -/

/-- One word of that run: performed on a settled core, and the transform it may start ended. -/
def settledWord (sb : SBox) (v : State) (c : CmdWord) : State := settled sb (wordEffect v c)

/-- The answers of that run to the words `cs`, in the bits that no schedule can change. -/
def settledAnswers (sb : SBox) : State → List CmdWord → List Word
  | _, [] => []
  | v, c :: cs => fixedAnswer v c ++ settledAnswers sb (settledWord sb v c) cs

/-- An accepted word does the same, in what no schedule can change, before the transform has ended and after it. -/
theorem settled_of_accepted {s : State} {c : CmdWord} (sb : SBox) (ha : accepts s c = true) :
    fixedAnswer s c = fixedAnswer (settled sb s) c ∧
      settled sb (wordEffect s c) = settledWord sb (settled sb s) c := by
  cases hb : s.BUSY with
  | false =>
    rw [settled_of_quiescent sb hb]
    exact ⟨rfl, settled_congr (registers_wordEffect s c).symm⟩
  | true =>
    have hpoll : c = nopWord ∨ c = rdsWord := ((accepts_iff s c).1 ha).resolve_left (by simp [hb])
    refine ⟨(fixedAnswer_poll hpoll sb s).symm, ?_⟩
    calc settled sb (wordEffect s c) = settled sb s := settled_congr (registers_wordEffect_poll hpoll s)
      _ = settled sb (settled sb s) := (settled_settled sb s).symm
      _ = settledWord sb (settled sb s) c := settled_congr (registers_wordEffect_poll hpoll _).symm

/-- The step from `s` to `u` takes a word, and the settled run performs it alike. -/
def TakesAsSettled (s u : State) : Prop :=
  ∃ c, s.port = c :: u.port ∧ u.responses = s.responses ++ wordAnswer s c ∧
    fixedAnswer s c = fixedAnswer (settled Config.SBOX s) c ∧
    settled Config.SBOX u = settledWord Config.SBOX (settled Config.SBOX s) c

theorem takesAsSettled_wordEffect {s : State} {c : CmdWord} {rest : List CmdWord} (hp : s.port = c :: rest)
    (ha : accepts s c = true) : TakesAsSettled s (wordEffect { afterTurn s with port := rest } c) := by
  obtain ⟨hanswer, heffect⟩ := settled_of_accepted Config.SBOX ha
  refine ⟨c, by simpa using hp, wordEffect_responses _ c, hanswer, ?_⟩
  rw [← heffect]
  exact settled_congr ((registers_wordEffect _ c).symm.trans (registers_wordEffect s c))

/-- One step beside the settled run: both perform a word, or the settled run does nothing. -/
theorem step_beside_settled {s u : State} (hn : noResetNow s) (h : step s = .next u) :
    (u.port = s.port ∧ u.responses = s.responses ∧ settled Config.SBOX u = settled Config.SBOX s) ∨
      TakesAsSettled s u := by
  have hc := step_agentsCase hn
  rw [h] at hc
  cases hc with
  | @command c rest i hp ha hd =>
    have htaken := takesAsSettled_wordEffect (s := s) hp ha
    simp only [wordEffect, hd] at htaken
    exact .inr htaken
  | @illegal c rest why hp hb hd =>
    have htaken := takesAsSettled_wordEffect (s := s) hp (accepts_of_quiescent hb c)
    simp only [wordEffect, hd] at htaken
    exact .inr htaken
  | round hb hr => exact .inl ⟨rfl, rfl, settled_roundStep (s := afterTurn s) hb hr⟩
  | final hb hr => exact .inl ⟨rfl, rfl, settled_finalStep (s := afterTurn s) hb hr⟩
  | idle => exact .inl ⟨rfl, rfl, rfl⟩

/-! ### Whole runs (R86) -/

/-- The words `r` are one for each mask, and are `x` in the bits of the masks. -/
def ShowsAs (masks r x : List Word) : Prop := r.length = masks.length ∧ List.zipWith (· &&& ·) masks r = x

theorem ShowsAs.append {masks masks' r r' x x' : List Word} (h : ShowsAs masks r x) (h' : ShowsAs masks' r' x') :
    ShowsAs (masks ++ masks') (r ++ r') (x ++ x') := by
  refine ⟨by simp [h.1, h'.1], ?_⟩
  rw [List.zipWith_append h.1.symm, h.2, h'.2]

theorem showsAs_wordAnswer (s : State) (c : CmdWord) :
    ShowsAs (scheduleFreeBits c).toList (wordAnswer s c) (fixedAnswer s c) := ⟨wordAnswer_length s c, rfl⟩

/-- What `t` is if it ends a run from `s`: its registers are those of the settled run of the words presented, and the
responses since `s` show that run's answers. -/
structure EndsAsSettled (s t : State) : Prop where
  registers_eq : registers t = s.port.foldl (settledWord Config.SBOX) (settled Config.SBOX s)
  responses_eq : ∃ r, t.responses = s.responses ++ r ∧
    ShowsAs (s.port.filterMap scheduleFreeBits) r (settledAnswers Config.SBOX (settled Config.SBOX s) s.port)

theorem endsAsSettled_of_finished {t : State} (hfin : t.Finished) : EndsAsSettled t t := by
  obtain ⟨hp, hb⟩ := hfin
  refine ⟨?_, [], (List.append_nil _).symm, ?_⟩
  · rw [hp, List.foldl_nil, settled_of_quiescent _ hb]
  · rw [hp]
    exact ⟨rfl, rfl⟩

/-- A step that takes no word puts nothing before the run that follows it. -/
theorem EndsAsSettled.of_unmoved {s u t : State} (hp : u.port = s.port) (hr : u.responses = s.responses)
    (hs : settled Config.SBOX u = settled Config.SBOX s) (h : EndsAsSettled u t) : EndsAsSettled s t := by
  obtain ⟨hreg, hresp⟩ := h
  rw [hp, hs] at hreg hresp
  rw [hr] at hresp
  exact ⟨hreg, hresp⟩

/-- A step that takes a word puts the word and its answer before the run that follows it. -/
theorem EndsAsSettled.of_taken {s u t : State} (htaken : TakesAsSettled s u) (h : EndsAsSettled u t) :
    EndsAsSettled s t := by
  obtain ⟨c, hp, hr, ha, hs⟩ := htaken
  obtain ⟨hreg, r, hresp, hshows⟩ := h
  rw [hs] at hreg hshows
  have hmasks : (c :: u.port).filterMap scheduleFreeBits =
      (scheduleFreeBits c).toList ++ u.port.filterMap scheduleFreeBits := by
    simp only [List.filterMap_eq_flatMap_toList, List.flatMap_cons]
  refine ⟨by rw [hp, List.foldl_cons, hreg], wordAnswer s c ++ r, by rw [hresp, hr, List.append_assoc], ?_⟩
  rw [hp, hmasks, settledAnswers, ← ha]
  exact (showsAs_wordAnswer s c).append hshows

/-- Whatever the schedule, a run that finishes ends as the settled run does. -/
theorem endsAsSettled_of_run {n : Nat} {s t : State} (hn : s.NoResetAhead) (h : run n s = .next t)
    (hfin : t.Finished) : EndsAsSettled s t := by
  induction n generalizing s with
  | zero =>
    obtain rfl : s = t := Host.Outcome.next.inj h
    exact endsAsSettled_of_finished hfin
  | succ n ih =>
    obtain ⟨u, hstep, hrun⟩ := runWith_succ_next h
    have hend := ih (noResetAhead_step hn hstep) hrun
    rcases step_beside_settled (noResetNow_of_ahead hn) hstep with ⟨hp, hr, hs⟩ | htaken
    · exact hend.of_unmoved hp hr hs
    · exact hend.of_taken htaken

/-- Settles O55: both runs end as the settled run of the same words from the same registers. -/
theorem scheduleShowsOnlyInStatusPolls : Obligations.ScheduleShowsOnlyInStatusPolls := by
  intro s t t' sch' ch' n n' _ hn hn' hrun hrun' hfin hfin'
  obtain ⟨hreg, r, hresp, hlen, hshown⟩ := endsAsSettled_of_run hn hrun hfin
  obtain ⟨hreg', r', hresp', hlen', hshown'⟩ := endsAsSettled_of_run hn' hrun' hfin'
  obtain ⟨hK, hA, hB, hMODE, hRND, hDONE, hILL⟩ := fields_eq_of_registers_eq (hreg'.trans hreg.symm)
  exact ⟨hK, hA, hB, hMODE, hRND, hDONE, hILL, r, r', hresp, hresp', hlen, hlen'.trans hlen.symm,
    hshown.trans hshown'.symm⟩

end Sys2Proof.Machine
end
